-- ==== Sys2Proof/Word.lean ====
section
/-! DEFINITION. The fixed widths of HUFCORE (00_scope.md R7): every host-visible register is 32 bits, a symbol
identifier 16 bits, a node index 16 bits, a byte offset in the register space 12 bits; a bit of a code or of a stream. -/

namespace Sys2Proof

/-- A host-visible register, a command word, a count or a weight: 32 bits, unsigned (R7). -/
abbrev Word := BitVec 32

/-- A symbol identifier: 16 bits, compared for equality only (R5, R7). -/
abbrev Sym := BitVec 16

/-- A node index as NODES and DECPTR hold it: 16 bits (R7). -/
abbrev NodeIdx := BitVec 16

/-- A byte offset in the register space: 12 bits (R7, R50). -/
abbrev Offset := BitVec 12

/-- One bit of a code or of the encoded stream (R9): `false` is 0 (left), `true` is 1 (right). -/
abbrev Bit := Bool

/-- A bit string; position 0 is its first bit (R9). -/
abbrev Code := List Bit

end Sys2Proof
end

