-- ==== Sys2Proof/Syntax.lean ====
section
/-! DEFINITION. The syntax: the twelve commands of spec/opcode_table.json (`Instr`), the named registers of the register
map (`Reg`), the host's bus operations (`BusOp`), and the lines of the spec's assembly language (`AsmLine`, `PseudoLine`;
30_encoding.md R91, R92). -/

namespace Sys2Proof

/-- The commands of R88, one constructor per row of the opcode table. Each operand has exactly the width its format gives
it (R84 to R87), so no term of this type is out of range. -/
inductive Instr where
  /-- OP 0x00, format N (R200). -/
  | nop
  /-- OP 0x01, format N (R201). -/
  | sreset
  /-- OP 0x02, format N (R202). -/
  | clrerr
  /-- OP 0x03, format N (R101). -/
  | ftClear
  /-- OP 0x04, format S (R102): SYM; the count travels in ARG. -/
  | ftAppend (sym : Sym)
  /-- OP 0x05, format N (R121). -/
  | build
  /-- OP 0x06, format N (R140). -/
  | gencodes
  /-- OP 0x07, format S (R160). -/
  | encSym (sym : Sym)
  /-- OP 0x08, format B (R180). -/
  | decBit (bv : BitVec 8)
  /-- OP 0x09, format N (R182). -/
  | decEnd
  /-- OP 0x0A, format N (R183). -/
  | decRst
  /-- OP 0x0B, format M (R203). -/
  | fifoClr (sel : BitVec 2)
deriving DecidableEq, Repr

/-- The named registers of the register map (20_memory.md R51), in offset order. -/
inductive Reg where
  | ident | cfgNmax | cfgObits | cfgOsyms | cmd | arg | status | errcmd | errarg | nent | root | rootw | decptr
  | obitsCnt | obitsPop | osymsCnt | osymsPop | idx | ftSym | ftCnt | nodeW | nodeInfo | nodeChild | codeLen | codeBit
deriving DecidableEq, Repr

/-- What the outside world can do to the core next: one bus operation of the host (R25, R52) or an assertion of the reset
input (70_reset_and_hazards.md R250). -/
inductive BusOp where
  /-- `MemRead(addr, 4)`. -/
  | read (addr : Offset)
  /-- `MemWrite(addr, 4, v)`. -/
  | write (addr : Offset) (v : Word)
  /-- The reset input is asserted and released; `abandoned` is the command word whose execution it cut short, if any
  (R250: "with no trace of the command"). DESIGN CHOICE (log 3). -/
  | hwReset (abandoned : Option Word)
deriving DecidableEq, Repr

/-- One line of the assembly language of R91, numbers as the programmer wrote them (so a line can be out of range; the
checks stand in WellFormed.lean). -/
inductive AsmLine where
  | wr (r : Reg) (v : Nat)
  | rd (r : Reg) (expected : Option Word)
  | nop | sreset | clrerr | ftClear
  | ftAppend (sym : Nat)
  | build | gencodes
  | encSym (sym : Nat)
  | decBit (bv : Nat)
  | decEnd | decRst
  | fifoClr (sel : Nat)
deriving DecidableEq, Repr

/-- One pseudo-instruction of R92. -/
inductive PseudoLine where
  | append (sym cnt : Nat)
  | encode (syms : List Nat)
  | decode (bits : List Nat)
  | drainBits (k : Nat)
  | drainSyms (k : Nat)
  | peekEntry (i : Nat)
  | peekNode (i : Nat)
  | peekCode (i j : Nat)
  | check
deriving DecidableEq, Repr

end Sys2Proof
end

