-- ==== Sys2Proof/Decode.lean ====
section
/-! DEFINITION. The encoding of commands (30_encoding.md R80 to R90): the fields, the formats with their reserved-bit masks,
the decoder (total on every 32-bit word, rejecting by name), the opcode map as a table of match and mask, and the encoder. -/

namespace Sys2Proof

/-- OP = w[31:24] (R82). -/
def opField (w : Word) : BitVec 8 := w.extractLsb' 24 8

/-- SYM = w[15:0] (R87). -/
def symField (w : Word) : Sym := w.extractLsb' 0 16

/-- BV = w[7:0] (R87). -/
def bvField (w : Word) : BitVec 8 := w.extractLsb' 0 8

/-- SEL = w[1:0] (R87). -/
def selField (w : Word) : BitVec 2 := w.extractLsb' 0 2

/-- The command formats of R83 to R86: no operand, symbol, bit value, mask. -/
inductive Format where
  | formN | formS | formB | formM
deriving DecidableEq, Repr

/-- RSV: the reserved-bit mask of a format (R80). -/
def Format.rsv : Format → Word
  | .formN => 0x00FFFFFF#32
  | .formS => 0x00FF0000#32
  | .formB => 0x00FFFF00#32
  | .formM => 0x00FFFFFC#32

/-- Why a word is no command (R89). Both reasons raise ILLEGAL_COMMAND. -/
inductive Illegal where
  /-- OP is 0x0C or more. -/
  | unassignedOp
  /-- An assigned OP with a reserved bit of its format set. -/
  | reservedBits
deriving DecidableEq, Repr

/-- What the decoder answers (R90): a command with its operand fields, or illegal. -/
inductive Decoded where
  | cmd (i : Instr)
  | illegal (why : Illegal)
deriving DecidableEq, Repr

/-- The format and the command that OP selects (R88), with the operand fields of that format. -/
def commandOf (w : Word) : Option (Format × Instr) :=
  match (opField w).toNat with
  | 0x00 => some (.formN, .nop)
  | 0x01 => some (.formN, .sreset)
  | 0x02 => some (.formN, .clrerr)
  | 0x03 => some (.formN, .ftClear)
  | 0x04 => some (.formS, .ftAppend (symField w))
  | 0x05 => some (.formN, .build)
  | 0x06 => some (.formN, .gencodes)
  | 0x07 => some (.formS, .encSym (symField w))
  | 0x08 => some (.formB, .decBit (bvField w))
  | 0x09 => some (.formN, .decEnd)
  | 0x0A => some (.formN, .decRst)
  | 0x0B => some (.formM, .fifoClr (selField w))
  | _ => none

/-- The decoder, with the checks in the order of R80: unassigned OP first, then reserved bits. -/
def decode (w : Word) : Decoded :=
  match commandOf w with
  | none => .illegal .unassignedOp
  | some (f, i) => if w &&& f.rsv ≠ 0#32 then .illegal .reservedBits else .cmd i

/-- The word of a format-N command (R83). -/
def wordN (op : BitVec 8) : Word := op ++ 0#24

/-- The word of a format-S command (R84). -/
def wordS (op : BitVec 8) (sym : Sym) : Word := op ++ 0#8 ++ sym

/-- The word of a format-B command (R85). -/
def wordB (op : BitVec 8) (bv : BitVec 8) : Word := op ++ 0#16 ++ bv

/-- The word of a format-M command (R86). -/
def wordM (op : BitVec 8) (sel : BitVec 2) : Word := op ++ 0#22 ++ sel

/-- The word of a command (the encoding column of R91). -/
def encode : Instr → Word
  | .nop => wordN 0x00#8
  | .sreset => wordN 0x01#8
  | .clrerr => wordN 0x02#8
  | .ftClear => wordN 0x03#8
  | .ftAppend sym => wordS 0x04#8 sym
  | .build => wordN 0x05#8
  | .gencodes => wordN 0x06#8
  | .encSym sym => wordS 0x07#8 sym
  | .decBit bv => wordB 0x08#8 bv
  | .decEnd => wordN 0x09#8
  | .decRst => wordN 0x0A#8
  | .fifoClr sel => wordM 0x0B#8 sel

/-- One row of the opcode map of R88. -/
structure OpRow where
  mnemonic  : String
  matchBits : Word
  mask      : Word
deriving DecidableEq, Repr

/-- "w is this command exactly when `(w & mask) == match`" (R88). -/
def OpRow.hits (w : Word) (r : OpRow) : Bool := (w &&& r.mask) == r.matchBits

/-- The opcode map of R88, row for row. -/
def opcodeMap : List OpRow :=
  [⟨"NOP", 0x00000000#32, 0xFFFFFFFF#32⟩, ⟨"SRESET", 0x01000000#32, 0xFFFFFFFF#32⟩,
   ⟨"CLRERR", 0x02000000#32, 0xFFFFFFFF#32⟩, ⟨"FT_CLEAR", 0x03000000#32, 0xFFFFFFFF#32⟩,
   ⟨"FT_APPEND", 0x04000000#32, 0xFFFF0000#32⟩, ⟨"BUILD", 0x05000000#32, 0xFFFFFFFF#32⟩,
   ⟨"GENCODES", 0x06000000#32, 0xFFFFFFFF#32⟩, ⟨"ENC_SYM", 0x07000000#32, 0xFFFF0000#32⟩,
   ⟨"DEC_BIT", 0x08000000#32, 0xFFFFFF00#32⟩, ⟨"DEC_END", 0x09000000#32, 0xFFFFFFFF#32⟩,
   ⟨"DEC_RST", 0x0A000000#32, 0xFFFFFFFF#32⟩, ⟨"FIFO_CLR", 0x0B000000#32, 0xFFFFFFFC#32⟩]

/-- The mnemonic of a command as R88 spells it. -/
def Instr.mnemonic : Instr → String
  | .nop => "NOP"
  | .sreset => "SRESET"
  | .clrerr => "CLRERR"
  | .ftClear => "FT_CLEAR"
  | .ftAppend _ => "FT_APPEND"
  | .build => "BUILD"
  | .gencodes => "GENCODES"
  | .encSym _ => "ENC_SYM"
  | .decBit _ => "DEC_BIT"
  | .decEnd => "DEC_END"
  | .decRst => "DEC_RST"
  | .fifoClr _ => "FIFO_CLR"

/-- The instruction the decoder reads from an opcode-table row's word, bits above `nbits` being 0. Every command is one
32-bit word (R81) and the host writes it whole (R52), so no byte order enters. -/
def decodeTableWord (nbits w : Nat) : Option Instr :=
  match decode (BitVec.ofNat 32 (w % 2 ^ nbits)) with
  | .cmd i => some i
  | .illegal _ => none

end Sys2Proof
end

