-- ==== Sys2Proof/Config.lean ====
section
/-! DEFINITION. What an instance of HUFCORE fixes: the three size parameters of 00_scope.md R6, their default values, and
the ID constant of 10_state.md R21. There is no free value: the spec leaves open no value that a command computes. -/

namespace Sys2Proof

/-- The size parameters of one instance (R6): what CFG_NMAX, CFG_OBITS and CFG_OSYMS hold (R22). DESIGN CHOICE (log 1):
they stand in State as constant registers that no step writes, so a claim about every state is a claim about every
instance. -/
structure Params where
  /-- NMAX: capacity of the frequency table in entries. -/
  nmax     : Nat
  /-- OBITS_CAP: capacity of the output bit FIFO in bits. -/
  obitsCap : Nat
  /-- OSYMS_CAP: capacity of the output symbol FIFO in symbols. -/
  osymsCap : Nat
deriving DecidableEq, Repr

/-- The default column of R6. -/
def Params.default : Params := { nmax := 256, obitsCap := 4096, osymsCap := 256 }

/-- The constant of the ID register (R21). -/
def idWord : Word := 0x48554646#32

end Sys2Proof
end

