-- ==== Sys2Proof/Machine/State.lean ====
section
/-! DEFINITION. The machine's state (10_state.md R20), plain data; the reasons a step can stop; the state after reset (R48). -/

namespace Sys2Proof.Machine

/-- PHASE, the core's sequencing state (R27). Values 4 to 7 "are never held" and have no constructor. -/
inductive Phase where
  | empty | loading | built | coded
deriving DecidableEq, Repr

/-- ECODE, the error code (60_exceptions.md R223). Codes 10 to 15 are "never produced" and have no constructor. -/
inductive ECode where
  | noError | illegalCommand | sequenceError | emptyTable | malformedFrequencyTable | tableFull | unknownSymbol
  | truncatedOrCorruptStream | weightOverflow | outputFull
deriving DecidableEq, Repr

/-- One entry of FT (R33). -/
structure Entry where
  sym : Sym
  cnt : Word
deriving DecidableEq, Repr

/-- One element of NODES (R35): the source's tagged union. -/
inductive Node where
  | leaf (sym : Sym) (weight : Word)
  | internal (weight : Word) (left right : NodeIdx)
deriving DecidableEq, Repr

/-- The complete state: the core's registers and stores (R20) and the host side that R25 and R265 give the model. -/
structure State where
  /-- CFG_NMAX, CFG_OBITS, CFG_OSYMS: constant registers (R22). -/
  cfg     : Params
  /-- ARG (R23). -/
  arg     : Word
  /-- IDX (R24). -/
  idx     : Word
  /-- PHASE (R27). -/
  phase   : Phase
  /-- ERR, the sticky error flag (R30). -/
  err     : Bool
  /-- ECODE (R30). -/
  ecode   : ECode
  /-- ERRCMD (R31). -/
  errcmd  : Word
  /-- ERRARG (R31). -/
  errarg  : Word
  /-- FT[0..n−1], the valid entries in load order (R33); n is the length (R32, log 4). -/
  ft      : List Entry
  /-- NODES (R35); meaningful while the tree is valid (R28, log 5). -/
  nodes   : List Node
  /-- CODES (R39); meaningful while the code table is valid (R28, log 5). -/
  codes   : List Code
  /-- DECPTR (R40). -/
  decptr  : NodeIdx
  /-- OBITS, front first (R41). -/
  obits   : List Bit
  /-- OSYMS, front first (R42). -/
  osyms   : List Sym
  /-- The host's operations still to come, oldest first (R25, log 2). -/
  pending : List BusOp
  /-- The index of the next host operation (R25). -/
  pc      : Nat
  /-- The values the host's reads returned, oldest first (R265). -/
  reads   : List Word
deriving DecidableEq, Repr

/-- n, the number of valid FT entries (R32). -/
def State.n (s : State) : Nat := s.ft.length

/-- What can stop a step. The spec gives HUFCORE no way to stop: its errors are next states (R224). Both faults stand for a
read of a store element that "holds no defined value" (R33, R35, R39); no state that meets the invariant of Safety.lean
reaches them. SAFE: the model stops where nothing is specified (log 6). -/
inductive Fault where
  /-- Raised by GENCODES and DEC_BIT: NODES holds no node (or a node of the wrong kind) where the walk looks. -/
  | nodeUndefined
  /-- Raised by ENC_SYM: CODES holds no code for an entry. -/
  | codeUndefined
deriving DecidableEq, Repr

/-- Why the model may have no meaning for a command. No arm of exec uses it: every command has its meaning. -/
inductive Refusal where
  /-- Raised by exec for a command without a meaning. SAFE. -/
  | notModelled (mnemonic : String)
deriving DecidableEq, Repr

/-- What a meaning answers. -/
abbrev Result := Host.Outcome State Fault Refusal

/-- The state after a hardware reset of an instance with parameters `p` (R48, R250). NODES and CODES have no specified
contents; nothing is listed (DESIGN CHOICE, log 5). The host's operations come from outside (log 2). -/
def State.resetFor (p : Params) : State :=
  { cfg := p, arg := 0#32, idx := 0#32, phase := .empty, err := false, ecode := .noError, errcmd := 0#32,
    errarg := 0#32, ft := [], nodes := [], codes := [], decptr := 0#16, obits := [], osyms := [], pending := [],
    pc := 0, reads := [] }

/-- The state right after reset, with the default parameters of R6. -/
def State.reset : State := State.resetFor Params.default

end Sys2Proof.Machine
end

