-- ==== Sys2Proof/Machine/Flags.lean ====
section
/-! DEFINITION. The status computations: validity of the tree and of the code table (10_state.md R28), the root index
(R37), the numeric codes of PHASE and ECODE (R27, 60_exceptions.md R223), and the STATUS view (R29). -/

namespace Sys2Proof.Machine

/-- The tree is valid exactly when PHASE is BUILT or CODED (R28). -/
def State.treeValid (s : State) : Bool := s.phase == .built || s.phase == .coded

/-- The code table is valid exactly when PHASE is CODED (R28). -/
def State.codesValid (s : State) : Bool := s.phase == .coded

/-- The root's index, 2n−2 (R35, R37), as a number. -/
def State.rootIdx (s : State) : Nat := 2 * s.n - 2

/-- The value of PHASE in STATUS[2:0] (R27). -/
def Phase.code : Phase → BitVec 3
  | .empty => 0#3
  | .loading => 1#3
  | .built => 2#3
  | .coded => 3#3

/-- The value of ECODE in STATUS[7:4] (R223). -/
def ECode.code : ECode → BitVec 4
  | .noError => 0#4
  | .illegalCommand => 1#4
  | .sequenceError => 2#4
  | .emptyTable => 3#4
  | .malformedFrequencyTable => 4#4
  | .tableFull => 5#4
  | .unknownSymbol => 6#4
  | .truncatedOrCorruptStream => 7#4
  | .weightOverflow => 8#4
  | .outputFull => 9#4

/-- DEC_AT_ROOT: the tree is valid and DECPTR is the root (R29). -/
def State.decAtRoot (s : State) : Bool := s.treeValid && decide (s.decptr.toNat = s.rootIdx)

/-- The STATUS view, from bit 31 down to bit 0 (R29). -/
def State.status (s : State) : Word :=
  0#21 ++ BitVec.ofBool (decide (0 < s.osyms.length)) ++ BitVec.ofBool (decide (0 < s.obits.length)) ++
    BitVec.ofBool s.decAtRoot ++ s.ecode.code ++ BitVec.ofBool s.err ++ s.phase.code

end Sys2Proof.Machine
end

