-- ==== Sys2Proof/Machine/Operands.lean ====
section
/-! DEFINITION. What a command or a window takes its operands from (30_encoding.md R87): the count in ARG, the entry a
symbol names (43_encoder.md R161), the bit a bit value stands for, and the two fields of IDX (10_state.md R24). -/

namespace Sys2Proof.Machine

/-- The count operand of FT_APPEND: ARG at the moment it executes (R87, R263). -/
def State.count (s : State) : Word := s.arg

/-- Lookup(sym): the entry index i < n with FT[i].sym = sym, or none (R161). -/
def lookupSym (sym : Sym) (ft : List Entry) : Option Nat := ft.findIdx? fun e => e.sym == sym

/-- The bit that a BV operand stands for: 0 selects left, 1 right, 2 to 255 are invalid bit symbols (R87). -/
def bitOf (bv : BitVec 8) : Option Bit :=
  if bv = 0#8 then some false else if bv = 1#8 then some true else none

/-- The BV operand that presents a bit. -/
def bvOf (b : Bit) : BitVec 8 := if b then 1#8 else 0#8

/-- IDX[15:0], the selected entry, node or code (R24). -/
def State.idxI (s : State) : Nat := (s.idx.extractLsb' 0 16).toNat

/-- IDX[31:16], the selected bit position (R24). -/
def State.idxJ (s : State) : Nat := (s.idx.extractLsb' 16 16).toNat

end Sys2Proof.Machine
end

