-- ==== Sys2Proof/Machine/Ops.lean ====
section
/-! DEFINITION. The shared operations: taking an error and returning from one (60_exceptions.md R224, R230), reset
(10_state.md R48), access to NODES, the two FIFOs, and taking the host's next operation (R25). -/

namespace Sys2Proof.Machine

/-- Error entry with error code `code` for the command word `w`: the four error registers and nothing else (R224). -/
def errorEntry (code : ECode) (w : Word) (s : State) : State :=
  { s with err := true, ecode := code, errcmd := w, errarg := s.arg }

/-- `raise E(code)` in the command `i` (R10): abort it and take the error. ERRCMD is the word executed, which is the one
word of the command (DEDUCED, log 8). -/
def raise (code : ECode) (i : Instr) (s : State) : Result := .next (errorEntry code (encode i) s)

/-- The return from an error (R230): the four error registers are cleared, nothing is restored (R202). -/
def errorReturn (s : State) : State :=
  { s with err := false, ecode := .noError, errcmd := 0#32, errarg := 0#32 }

/-- Reset of the core, by the reset input or by SRESET (R48, R201, R250). NODES and CODES have no specified contents and
keep what they hold (log 5); the host's side is outside the core. -/
def coreReset (s : State) : State :=
  { s with arg := 0#32, idx := 0#32, phase := .empty, err := false, ecode := .noError, errcmd := 0#32, errarg := 0#32,
           ft := [], decptr := 0#16, obits := [], osyms := [] }

/-- The weight of a node (R12). -/
def Node.weight : Node → Word
  | .leaf _ w => w
  | .internal w _ _ => w

/-- The child of an internal node that a bit selects: 0 left, 1 right (R141, R181). None for a leaf. -/
def Node.child (b : Bit) : Node → Option NodeIdx
  | .leaf _ _ => none
  | .internal _ l r => some (if b then r else l)

/-- DECPTR at the root, in its 16 bits (R40). 2n−2 fits, because n ≤ NMAX ≤ 32768 (R6, log 9). -/
def State.rootPtr (s : State) : NodeIdx := BitVec.ofNat 16 s.rootIdx

/-- Append bits at the back of OBITS (R41, R162). -/
def pushBits (bits : Code) (s : State) : State := { s with obits := s.obits ++ bits }

/-- Append a symbol at the back of OSYMS (R42). -/
def pushSym (sym : Sym) (s : State) : State := { s with osyms := s.osyms ++ [sym] }

/-- Remove the front of OBITS; nothing when it is empty (R57). -/
def popBit (s : State) : State := { s with obits := s.obits.tail }

/-- Remove the front of OSYMS; nothing when it is empty (R58). -/
def popSym (s : State) : State := { s with osyms := s.osyms.tail }

/-- Record the value a host read returned (R265). -/
def logRead (v : Word) (s : State) : State := { s with reads := s.reads ++ [v] }

/-- The state in which the host's next operation runs: it is taken from the program and pc has advanced by 1 (R25). -/
def advance (rest : List BusOp) (s : State) : State := { s with pending := rest, pc := s.pc + 1 }

end Sys2Proof.Machine
end

