-- ==== Sys2Proof/Machine/CodeGenerator.lean ====
section
/-! DEFINITION. The code generator, GENCODES (42_code_generator.md). -/

namespace Sys2Proof.Machine

/-- Walk(v, prefix) of R141: the writes `CODES[v] <- prefix` it makes, in order, left subtree before right. None when it
would read a node that does not exist (log 6). A child's index is below its parent's (R127), so the number of nodes is
fuel enough (log 15). -/
def walk (nodes : List Node) : Nat → Nat → Code → Option (List (Nat × Code))
  | 0, _, _ => none
  | fuel + 1, v, path =>
    match nodes[v]? with
    | none => none
    | some (.leaf _ _) => some [(v, path)]
    | some (.internal _ l r) =>
      match walk nodes fuel l.toNat (path ++ [false]), walk nodes fuel r.toNat (path ++ [true]) with
      | some ls, some rs => some (ls ++ rs)
      | _, _ => none

/-- CODES[i] after a sequence of writes: what the last write to it wrote (log 15). -/
def writtenCode (writes : List (Nat × Code)) (i : Nat) : Option Code := writes.reverse.lookup i

/-- The values of a list of optional values, when all are there. -/
def allSome {α : Type} : List (Option α) → Option (List α)
  | [] => some []
  | none :: _ => none
  | some x :: rest => (allSome rest).map (x :: ·)

/-- CODES[0..n−1] from the tree (R140): walk from the root, 2n−2, with the empty bit string. -/
def genCodes (n : Nat) (nodes : List Node) : Option (List Code) :=
  match walk nodes nodes.length (2 * n - 2) [] with
  | none => none
  | some writes => allSome ((List.range n).map (writtenCode writes))

/-- GENCODES (R140). -/
def execGencodes (s : State) : Result :=
  if s.treeValid then
    match genCodes s.n s.nodes with
    | none => .fault .nodeUndefined
    | some codes => .next { s with codes := codes, phase := .coded }
  else raise .sequenceError .gencodes s

end Sys2Proof.Machine
end

