-- ==== Sys2Proof/Machine/Control.lean ====
section
/-! DEFINITION. The control commands NOP, SRESET, CLRERR, FIFO_CLR (45_control.md). -/

namespace Sys2Proof.Machine

/-- NOP: no effect (R200). -/
def execNop (s : State) : Result := .next s

/-- SRESET: soft reset (R201). -/
def execSreset (s : State) : Result := .next (coreReset s)

/-- CLRERR: acknowledge and clear the recorded error (R202). -/
def execClrerr (s : State) : Result := .next (errorReturn s)

/-- FIFO_CLR: SEL[0] empties OBITS, SEL[1] empties OSYMS (R203). -/
def execFifoClr (sel : BitVec 2) (s : State) : Result :=
  .next { s with obits := if sel.getLsbD 0 then [] else s.obits, osyms := if sel.getLsbD 1 then [] else s.osyms }

end Sys2Proof.Machine
end

