-- ==== Sys2Proof/Machine/Decoder.lean ====
section
/-! DEFINITION. The tree-walker decoder, DEC_BIT, DEC_END, DEC_RST (44_decoder.md). -/

namespace Sys2Proof.Machine

/-- The child c that DecStep(b) would move to and the node it is (R181). None when NODES holds no such node (log 6). -/
def decTarget (b : Bit) (s : State) : Option (NodeIdx × Node) :=
  match s.nodes[s.decptr.toNat]? with
  | none => none
  | some p =>
    match p.child b with
    | none => none
    | some c =>
      match s.nodes[c.toNat]? with
      | none => none
      | some nd => some (c, nd)

/-- DEC_BIT, with the four guards of R180 in order, then DecStep (R181). -/
def execDecBit (bv : BitVec 8) (s : State) : Result :=
  if s.treeValid then
    match bitOf bv with
    | none => raise .truncatedOrCorruptStream (.decBit bv) s
    | some b =>
      if s.n = 1 then raise .truncatedOrCorruptStream (.decBit bv) s
      else
        match decTarget b s with
        | none => .fault .nodeUndefined
        | some (_, .leaf sym _) =>
          if s.osyms.length = s.cfg.osymsCap then raise .outputFull (.decBit bv) s
          else .next { pushSym sym s with decptr := s.rootPtr }
        | some (c, .internal _ _ _) => .next { s with decptr := c }
  else raise .sequenceError (.decBit bv) s

/-- DEC_END: check that the stream ended at a symbol boundary (R182). -/
def execDecEnd (s : State) : Result :=
  if s.treeValid then
    if s.decptr.toNat ≠ s.rootIdx then raise .truncatedOrCorruptStream .decEnd s else .next s
  else raise .sequenceError .decEnd s

/-- DEC_RST: put the pointer back at the root (R183). -/
def execDecRst (s : State) : Result :=
  if s.treeValid then .next { s with decptr := s.rootPtr } else raise .sequenceError .decRst s

end Sys2Proof.Machine
end

