-- ==== Sys2Proof/Machine/Encoder.lean ====
section
/-! DEFINITION. The bit-stream encoder, ENC_SYM (43_encoder.md). -/

namespace Sys2Proof.Machine

/-- ENC_SYM, with the three guards of R160 in order. Guard 3 is stated without subtraction: the code does not fit when
len(OBITS) + len(code) exceeds OBITS_CAP. -/
def execEncSym (sym : Sym) (s : State) : Result :=
  if s.codesValid then
    match lookupSym sym s.ft with
    | none => raise .unknownSymbol (.encSym sym) s
    | some i =>
      match s.codes[i]? with
      | none => .fault .codeUndefined
      | some code =>
        if s.cfg.obitsCap < s.obits.length + code.length then raise .outputFull (.encSym sym) s
        else .next (pushBits code s)
  else raise .sequenceError (.encSym sym) s

end Sys2Proof.Machine
end

