-- ==== Sys2Proof/Machine/TableLoad.lean ====
section
/-! DEFINITION. The frequency-table load commands FT_CLEAR and FT_APPEND (40_table_load.md). -/

namespace Sys2Proof.Machine

/-- FT_CLEAR: discard the table and everything derived from it (R101). -/
def execFtClear (s : State) : Result := .next { s with ft := [], phase := .empty, decptr := 0#16 }

/-- FT_APPEND: append (SYM, ARG) at the end of the table, with the four guards of R102 in order. -/
def execFtAppend (sym : Sym) (s : State) : Result :=
  if s.treeValid then raise .sequenceError (.ftAppend sym) s
  else if s.count = 0#32 then raise .malformedFrequencyTable (.ftAppend sym) s
  else if (lookupSym sym s.ft).isSome then raise .malformedFrequencyTable (.ftAppend sym) s
  else if s.n = s.cfg.nmax then raise .tableFull (.ftAppend sym) s
  else .next { s with ft := s.ft ++ [{ sym := sym, cnt := s.count }], phase := .loading }

end Sys2Proof.Machine
end

