-- ==== Sys2Proof/Machine/TreeBuilder.lean ====
section
/-! DEFINITION. The tree builder, BUILD (41_tree_builder.md): stable sort (00_scope.md R9), the merge algorithm of R125,
and the command with its guards (R121). -/

namespace Sys2Proof.Machine

/-- Insert `x` into an ascending sequence before every element whose key is not smaller. -/
def insertByKey {α : Type} (key : α → Nat) (x : α) : List α → List α
  | [] => [x]
  | y :: ys => if key x ≤ key y then x :: y :: ys else y :: insertByKey key x ys

/-- `stable_sort_by(key, s)`: ascending in `key`, elements of equal keys in the order they have in `s` (R9). -/
def stableSortBy {α : Type} (key : α → Nat) : List α → List α
  | [] => []
  | x :: xs => insertByKey key x (stableSortBy key xs)

/-- `weight(x)`, NODES[x].weight as an integer (R125); the algorithm asks only for nodes that exist. -/
def weightAt (nodes : List Node) (x : Nat) : Nat :=
  match nodes[x]? with
  | some nd => nd.weight.toNat
  | none => 0

/-- The leaf of each entry (R122). -/
def leafNodes (ft : List Entry) : List Node := ft.map fun e => .leaf e.sym e.cnt

/-- The internal node of one merge: first-removed left, second-removed right, weight the sum (R125). The sum fits 32 bits
because BUILD has checked the total (R123). -/
def mergedNode (nodes : List Node) (a b : Nat) : Node :=
  .internal (BitVec.ofNat 32 (weightAt nodes a + weightAt nodes b)) (BitVec.ofNat 16 a) (BitVec.ofNat 16 b)

/-- Step 2 of R125: while two nodes remain in the working collection, merge the first two into the next node (index n+k,
the length of what is built), append it and re-sort. `fuel` bounds the number of merges
(log 15). -/
def mergeLoop : Nat → List Node → List Nat → List Node
  | fuel + 1, nodes, a :: b :: rest =>
    mergeLoop fuel (nodes ++ [mergedNode nodes a b])
      (stableSortBy (weightAt (nodes ++ [mergedNode nodes a b])) (rest ++ [nodes.length]))
  | _, nodes, _ => nodes

/-- BuildTree (R125): NODES[0..2n−2] from the table alone (R124). The loop runs n−1 times, so n is fuel enough. -/
def buildTree (ft : List Entry) : List Node :=
  mergeLoop ft.length (leafNodes ft) (stableSortBy (weightAt (leafNodes ft)) (List.range ft.length))

/-- Σ FT[i].cnt as an integer (R123). -/
def totalCount (ft : List Entry) : Nat := (ft.map fun e => e.cnt.toNat).sum

/-- BUILD, with the two guards of R121 in order. -/
def execBuild (s : State) : Result :=
  if s.phase = .empty then raise .emptyTable .build s
  else if 2 ^ 32 - 1 < totalCount s.ft then raise .weightOverflow .build s
  else .next { s with nodes := buildTree s.ft, phase := .built, decptr := s.rootPtr }

end Sys2Proof.Machine
end

