-- ==== Sys2Proof/Machine/Dispatch.lean ====
section
/-! DEFINITION. exec: the meaning of each command, for a word that has passed the checks of 30_encoding.md R80 (the ERR
filter stands in `execWord`, log 10). -/

namespace Sys2Proof.Machine

def exec (i : Instr) (s : State) : Host.Outcome State Fault Refusal :=
  match i with
  | .nop => Sys2Proof.Machine.execNop s
  | .sreset => Sys2Proof.Machine.execSreset s
  | .clrerr => Sys2Proof.Machine.execClrerr s
  | .ftClear => Sys2Proof.Machine.execFtClear s
  | .ftAppend sym => Sys2Proof.Machine.execFtAppend sym s
  | .build => Sys2Proof.Machine.execBuild s
  | .gencodes => Sys2Proof.Machine.execGencodes s
  | .encSym sym => Sys2Proof.Machine.execEncSym sym s
  | .decBit bv => Sys2Proof.Machine.execDecBit bv s
  | .decEnd => Sys2Proof.Machine.execDecEnd s
  | .decRst => Sys2Proof.Machine.execDecRst s
  | .fifoClr sel => Sys2Proof.Machine.execFifoClr sel s

end Sys2Proof.Machine
end

