-- ==== Sys2Proof/Machine/Bus.lean ====
section
/-! DEFINITION. The host's register interface (20_memory.md): the register map (R51), the value of each register (10_state.md
R21 to R47), MemRead and MemWrite (R52 to R58), Exec(w) (30_encoding.md R80), and one host operation. -/

namespace Sys2Proof.Machine

/-- The offset of a named register (R51). -/
def regOffset : Reg → Offset
  | .ident => 0x000#12
  | .cfgNmax => 0x004#12
  | .cfgObits => 0x008#12
  | .cfgOsyms => 0x00C#12
  | .cmd => 0x010#12
  | .arg => 0x014#12
  | .status => 0x018#12
  | .errcmd => 0x01C#12
  | .errarg => 0x020#12
  | .nent => 0x024#12
  | .root => 0x028#12
  | .rootw => 0x02C#12
  | .decptr => 0x030#12
  | .obitsCnt => 0x034#12
  | .obitsPop => 0x038#12
  | .osymsCnt => 0x03C#12
  | .osymsPop => 0x040#12
  | .idx => 0x044#12
  | .ftSym => 0x048#12
  | .ftCnt => 0x04C#12
  | .nodeW => 0x050#12
  | .nodeInfo => 0x054#12
  | .nodeChild => 0x058#12
  | .codeLen => 0x05C#12
  | .codeBit => 0x060#12

/-- The registers in offset order: the register at word index addr[11:2]. -/
def regList : List Reg :=
  [.ident, .cfgNmax, .cfgObits, .cfgOsyms, .cmd, .arg, .status, .errcmd, .errarg, .nent, .root, .rootw, .decptr,
   .obitsCnt, .obitsPop, .osymsCnt, .osymsPop, .idx, .ftSym, .ftCnt, .nodeW, .nodeInfo, .nodeChild, .codeLen, .codeBit]

/-- The register an access selects: addr[11:2]; addr[1:0] are ignored (R52). None for a reserved offset (R55). -/
def regAt (addr : Offset) : Option Reg := regList[(addr.extractLsb' 2 10).toNat]?

/-- A 16-bit value zero-extended to a register. -/
def zext16 (v : BitVec 16) : Word := 0#16 ++ v

/-- ROOT (R37). -/
def rootView (s : State) : Word := if s.treeValid then 1#1 ++ 0#15 ++ s.rootPtr else 0#32

/-- The node that a window or ROOTW shows: NODES[i] when the tree is valid and i ≤ 2n−2 (R38, R46).
A valid tree has that node; in a state outside the invariant that lists none, nothing is shown (DESIGN CHOICE, log 7). -/
def shownNode (s : State) (i : Nat) : Option Node :=
  if s.treeValid && decide (i ≤ s.rootIdx) then s.nodes[i]? else none

/-- The code that a window shows: CODES[i] when the code table is valid and i < n (R47);
log 7 as for `shownNode`. -/
def shownCode (s : State) (i : Nat) : Option Code :=
  if s.codesValid && decide (i < s.n) then s.codes[i]? else none

/-- NODE_W and ROOTW: the weight of a shown node, else 0 (R38, R46). -/
def weightView (o : Option Node) : Word :=
  match o with
  | none => 0#32
  | some nd => nd.weight

/-- NODE_INFO of a shown node, else 0 (R46). -/
def infoView (o : Option Node) : Word :=
  match o with
  | none => 0#32
  | some (.leaf sym _) => 1#1 ++ 0#1 ++ 0#14 ++ sym
  | some (.internal _ _ _) => 1#1 ++ 1#1 ++ 0#14 ++ 0#16

/-- NODE_CHILD of a shown node, else 0 (R46). -/
def childView (o : Option Node) : Word :=
  match o with
  | none => 0#32
  | some (.leaf _ _) => 0#32
  | some (.internal _ l r) => r ++ l

/-- CODE_LEN of a shown code, else 0 (R47). -/
def codeLenView (o : Option Code) : Word :=
  match o with
  | none => 0#32
  | some c => 1#1 ++ 0#15 ++ BitVec.ofNat 16 c.length

/-- CODE_BIT: position j of a shown code, else 0 (R47). -/
def codeBitView (o : Option Code) (j : Nat) : Word :=
  match o with
  | none => 0#32
  | some code =>
    match code[j]? with
    | none => 0#32
    | some b => 1#1 ++ 0#30 ++ BitVec.ofBool b

/-- OBITS_POP's value: the front bit with bit 31 set, 0 when empty (R57). -/
def bitPopView (bits : List Bit) : Word :=
  match bits with
  | [] => 0#32
  | b :: _ => 1#1 ++ 0#30 ++ BitVec.ofBool b

/-- OSYMS_POP's value: the front symbol with bit 31 set, 0 when empty (R58). -/
def symPopView (syms : List Sym) : Word :=
  match syms with
  | [] => 0#32
  | sym :: _ => 1#1 ++ 0#15 ++ sym

/-- The value a read of a register returns, computed from the state at the read (R54). -/
def regValue (r : Reg) (s : State) : Word :=
  match r with
  | .ident => idWord
  | .cfgNmax => zext16 (BitVec.ofNat 16 s.cfg.nmax)
  | .cfgObits => BitVec.ofNat 32 s.cfg.obitsCap
  | .cfgOsyms => BitVec.ofNat 32 s.cfg.osymsCap
  | .cmd => 0#32
  | .arg => s.arg
  | .status => s.status
  | .errcmd => s.errcmd
  | .errarg => s.errarg
  | .nent => BitVec.ofNat 32 s.n
  | .root => rootView s
  | .rootw => weightView (shownNode s s.rootIdx)
  | .decptr => zext16 s.decptr
  | .obitsCnt => BitVec.ofNat 32 s.obits.length
  | .obitsPop => bitPopView s.obits
  | .osymsCnt => BitVec.ofNat 32 s.osyms.length
  | .osymsPop => symPopView s.osyms
  | .idx => s.idx
  | .ftSym =>
    match s.ft[s.idxI]? with
    | none => 0#32
    | some e => zext16 e.sym
  | .ftCnt =>
    match s.ft[s.idxI]? with
    | none => 0#32
    | some e => e.cnt
  | .nodeW => weightView (shownNode s s.idxI)
  | .nodeInfo => infoView (shownNode s s.idxI)
  | .nodeChild => childView (shownNode s s.idxI)
  | .codeLen => codeLenView (shownCode s s.idxI)
  | .codeBit => codeBitView (shownCode s s.idxI) s.idxJ

/-- What a read does to the state: the two pops remove the front element, every other read nothing (R54, R57, R58). -/
def readEffect (r : Reg) (s : State) : State :=
  match r with
  | .obitsPop => popBit s
  | .osymsPop => popSym s
  | _ => s

/-- The value of `MemRead(addr, 4)` (R54); a reserved offset reads 0 (R55). -/
def memReadValue (addr : Offset) (s : State) : Word :=
  match regAt addr with
  | none => 0#32
  | some r => regValue r s

/-- The state after `MemRead(addr, 4)` (R54, R55). -/
def memReadEffect (addr : Offset) (s : State) : State :=
  match regAt addr with
  | none => s
  | some r => readEffect r s

/-- The word of SRESET, written out (R80). -/
def sresetWord : Word := 0x01000000#32

/-- The word of CLRERR, written out (R80). -/
def clrerrWord : Word := 0x02000000#32

/-- `Exec(w)` (R80): while ERR = 1 only SRESET and CLRERR execute and everything else is discarded (R225); then the
decoder's two checks, which raise ILLEGAL_COMMAND with the word itself (R89); then the command. The ERR filter stands here
and not in exec (log 10). -/
def execWord (w : Word) (s : State) : Result :=
  if s.err then
    if w = sresetWord then exec .sreset s
    else if w = clrerrWord then exec .clrerr s
    else .next s
  else
    match decode w with
    | .illegal _ => .next (errorEntry .illegalCommand w s)
    | .cmd i => exec i s

/-- `MemWrite(addr, 4, v)` (R53): CMD executes, ARG and IDX are written, everything else is ignored. -/
def memWrite (addr : Offset) (v : Word) (s : State) : Result :=
  match regAt addr with
  | some .cmd => execWord v s
  | some .arg => .next { s with arg := v }
  | some .idx => .next { s with idx := v }
  | _ => .next s

/-- One host operation, or one assertion of the reset input, in the state in which it runs (R60, R250). -/
def runBusOp (op : BusOp) (s : State) : Result :=
  match op with
  | .read a => .next (logRead (memReadValue a s) (memReadEffect a s))
  | .write a v => memWrite a v s
  | .hwReset _ => .next (coreReset s)

end Sys2Proof.Machine
end

