-- ==== Sys2Proof/Machine/Step.lean ====
section
/-! DEFINITION. One step: the host's next operation takes effect entirely (20_memory.md R60, R64). -/

namespace Sys2Proof.Machine

/-- One step. The next operation of the host is taken and runs; with no operation left the run has ended (R265) and the
core holds its state (R238; DESIGN CHOICE, log 2). -/
def step (s : State) : Host.Outcome State Fault Refusal :=
  match s.pending with
  | [] => .next s
  | op :: rest => runBusOp op (advance rest s)

/-- The state whose next host operation is a write of the command word `w` to CMD. HUFCORE fetches no instructions (R25,
R67): the host's program is loaded from outside the machine, and this is that load (log 2). The error flag is left alone:
while ERR = 1 the step fetches the word and discards it, as R225 says. -/
def State.withFetchWord (s : State) (nbits w : Nat) : State :=
  { s with pending := .write (regOffset .cmd) (BitVec.ofNat 32 (w % 2 ^ nbits)) :: s.pending }

end Sys2Proof.Machine
end

