-- ==== Sys2Proof/WellFormed.lean ====
section
/-! DEFINITION. What is well-formed: the ranges of the size parameters (00_scope.md R6) and of the operands of an assembly
line (30_encoding.md R91). `Instr` needs no check: its operand types are exactly the fields of R83 to R86. -/

namespace Sys2Proof

/-- The legal ranges of R6. -/
def Params.wf (p : Params) : Bool :=
  decide (1 ≤ p.nmax) && decide (p.nmax ≤ 32768) &&
  decide (1 ≤ p.obitsCap) && decide (p.nmax - 1 ≤ p.obitsCap) && decide (p.obitsCap < 2 ^ 32) &&
  decide (1 ≤ p.osymsCap) && decide (p.osymsCap < 2 ^ 32)

/-- The operand ranges of R91: "an assembler refuses a value outside the range rather than truncate it". A `WR` value must
fit the 32-bit register (DEDUCED from R52, log 11). -/
def AsmLine.wf : AsmLine → Bool
  | .wr _ v => decide (v < 2 ^ 32)
  | .ftAppend sym => decide (sym ≤ 65535)
  | .encSym sym => decide (sym ≤ 65535)
  | .decBit bv => decide (bv ≤ 255)
  | .fifoClr sel => decide (sel ≤ 3)
  | .rd _ _ => true
  | .nop => true
  | .sreset => true
  | .clrerr => true
  | .ftClear => true
  | .build => true
  | .gencodes => true
  | .decEnd => true
  | .decRst => true

/-- The one range R92 itself gives a pseudo-instruction: `DECODE <b1 … bk>` with "each bi 0 or 1". The lines it expands to
are checked as lines. -/
def PseudoLine.wf : PseudoLine → Bool
  | .decode bits => bits.all fun b => decide (b ≤ 1)
  | .append _ _ => true
  | .encode _ => true
  | .drainBits _ => true
  | .drainSyms _ => true
  | .peekEntry _ => true
  | .peekNode _ => true
  | .peekCode _ _ => true
  | .check => true

end Sys2Proof
end

