-- ==== Sys2Proof/Machine/Assembler.lean ====
section
/-! DEFINITION. The spec's assembly language for host programs, at the level of abstract lines (30_encoding.md R91, R92,
log 11): the bus operation of a line and the exact expansion of a pseudo-instruction. -/

namespace Sys2Proof.Machine

/-- A write of a command to CMD. -/
def cmdOp (i : Instr) : BusOp := .write (regOffset .cmd) (encode i)

/-- The bus operation of a line (R91); none when a value is out of range ("refuses ... rather than truncate"). -/
def assemble (l : AsmLine) : Option BusOp :=
  if l.wf then
    match l with
    | .wr r v => some (.write (regOffset r) (BitVec.ofNat 32 v))
    | .rd r _ => some (.read (regOffset r))
    | .nop => some (cmdOp .nop)
    | .sreset => some (cmdOp .sreset)
    | .clrerr => some (cmdOp .clrerr)
    | .ftClear => some (cmdOp .ftClear)
    | .ftAppend sym => some (cmdOp (.ftAppend (BitVec.ofNat 16 sym)))
    | .build => some (cmdOp .build)
    | .gencodes => some (cmdOp .gencodes)
    | .encSym sym => some (cmdOp (.encSym (BitVec.ofNat 16 sym)))
    | .decBit bv => some (cmdOp (.decBit (BitVec.ofNat 8 bv)))
    | .decEnd => some (cmdOp .decEnd)
    | .decRst => some (cmdOp .decRst)
    | .fifoClr sel => some (cmdOp (.fifoClr (BitVec.ofNat 2 sel)))
  else none

/-- The exact expansion of a pseudo-instruction (R92); none for a DECODE with an operand that is not a bit. -/
def expand (p : PseudoLine) : Option (List AsmLine) :=
  if p.wf then
    match p with
    | .append sym cnt => some [.wr .arg cnt, .ftAppend sym]
    | .encode syms => some (syms.map .encSym)
    | .decode bits => some (bits.map .decBit ++ [.decEnd])
    | .drainBits k => some (List.replicate k (.rd .obitsPop none))
    | .drainSyms k => some (List.replicate k (.rd .osymsPop none))
    | .peekEntry i => some [.wr .idx i, .rd .ftSym none, .rd .ftCnt none]
    | .peekNode i => some [.wr .idx i, .rd .nodeW none, .rd .nodeInfo none, .rd .nodeChild none]
    | .peekCode i j => some [.wr .idx ((j <<< 16) ||| i), .rd .codeLen none, .rd .codeBit none]
    | .check => some [.rd .status none]
  else none

end Sys2Proof.Machine
end

