-- ==== Sys2Proof/Safety.lean ====
section
/-! DEFINITION. The terms claims are stated in: the invariant of a safe run, runs of commands and of host operations, the
outcome relation, paths in the tree, the reference forms of the rules (the priority queue of R126, the guard table of R227,
the phase table of R256). -/

namespace Sys2Proof.Machine

/-! ### Runs -/

/-- The next state of an outcome, if it is one. -/
def nextState? (r : Result) : Option State :=
  match r with
  | .next s => some s
  | .fault _ => none
  | .refused _ => none

/-- Commands executed one after the other, each in the state the one before left. -/
def execAll : List Instr → State → Result
  | [], s => .next s
  | i :: is, s =>
    match exec i s with
    | .next t => execAll is t
    | .fault f => .fault f
    | .refused r => .refused r

/-- Host operations one after the other (R64). -/
def runOps : List BusOp → State → Result
  | [], s => .next s
  | op :: ops, s =>
    match runBusOp op s with
    | .next t => runOps ops t
    | .fault f => .fault f
    | .refused r => .refused r

/-- Two outcomes are of the same kind, next states related by `R`, reasons equal. -/
def ResultRel (R : State → State → Prop) : Result → Result → Prop
  | .next s, .next t => R s t
  | .fault f, .fault g => f = g
  | .refused a, .refused b => a = b
  | _, _ => False

/-- The host operations that load entries in order: `WR ARG, count` then `FT_APPEND sym` for each (R253 step 3). -/
def loadOps (es : List Entry) : List BusOp :=
  es.flatMap fun e => [.write (regOffset .arg) e.cnt, cmdOp (.ftAppend e.sym)]

/-- The DEC_BIT commands that feed a bit string to the decoder, first bit first (R254 step 4). -/
def decBits (bits : Code) : List Instr := bits.map fun b => .decBit (bvOf b)

/-! ### The tree -/

/-- `Path nodes v c x`: following the directions `c` from node `v`, 0 to the left child and 1 to the right child, leads to
node `x` (R12, R141). -/
inductive Path (nodes : List Node) : Nat → Code → Nat → Prop where
  | here (v : Nat) : Path nodes v [] v
  | left {v : Nat} {w : Word} {l r : NodeIdx} {c : Code} {x : Nat} :
      nodes[v]? = some (.internal w l r) → Path nodes l.toNat c x → Path nodes v (false :: c) x
  | right {v : Nat} {w : Word} {l r : NodeIdx} {c : Code} {x : Nat} :
      nodes[v]? = some (.internal w l r) → Path nodes r.toNat c x → Path nodes v (true :: c) x

/-- Node `k` is internal and has `x` as a child. -/
def IsParent (nodes : List Node) (k x : Nat) : Prop :=
  ∃ w l r, nodes[k]? = some (.internal w l r) ∧ (l.toNat = x ∨ r.toNat = x)

/-! ### The invariant of a safe run -/

/-- What holds of every state a run reaches (R6, R27, R28, R30, R31, R32, R34, R35, R39 to R42, R184). -/
structure Inv (s : State) : Prop where
  /-- The parameters are legal (R6). -/
  cfgLegal : s.cfg.wf = true
  /-- n ≤ NMAX (R32). -/
  tableFits : s.ft.length ≤ s.cfg.nmax
  /-- Every count is positive (R34). -/
  countsPositive : ∀ e ∈ s.ft, e.cnt ≠ 0#32
  /-- No two entries have the same symbol (R34). -/
  symbolsDistinct : (s.ft.map Entry.sym).Nodup
  /-- PHASE = EMPTY exactly when n = 0 (R32). -/
  emptyIff : s.phase = .empty ↔ s.ft = []
  /-- A built table's counts sum to a weight (R123). -/
  totalFits : s.treeValid = true → totalCount s.ft ≤ 2 ^ 32 - 1
  /-- A valid tree is the table's tree (R35). -/
  nodesBuilt : s.treeValid = true → s.nodes = buildTree s.ft
  /-- A valid code table is the tree's code table (R39). -/
  codesDerived : s.codesValid = true → genCodes s.n s.nodes = some s.codes
  /-- While the tree is valid DECPTR is the root or an internal node (R40). -/
  pointerInTree : s.treeValid = true →
    s.decptr.toNat = s.rootIdx ∨ ∃ w l r, s.nodes[s.decptr.toNat]? = some (.internal w l r)
  /-- While it is not, DECPTR holds 0 (R40). -/
  pointerIdle : s.treeValid = false → s.decptr = 0#16
  /-- len(OBITS) ≤ OBITS_CAP (R41). -/
  bitsFit : s.obits.length ≤ s.cfg.obitsCap
  /-- len(OSYMS) ≤ OSYMS_CAP (R42). -/
  symsFit : s.osyms.length ≤ s.cfg.osymsCap
  /-- ECODE, ERRCMD and ERRARG are 0 while ERR = 0 (R30, R31). -/
  noErrorClear : s.err = false → s.ecode = .noError ∧ s.errcmd = 0#32 ∧ s.errarg = 0#32
  /-- A recorded error has a code (R30). -/
  errorCoded : s.err = true → s.ecode ≠ .noError

/-- Two states that differ at most in what the spec calls unobservable: NODES while the tree is not valid, CODES while the
code table is not valid (R28, R48). -/
def SameObservable (s t : State) : Prop :=
  t = { s with nodes := t.nodes, codes := t.codes } ∧
    (s.treeValid = true → t.nodes = s.nodes) ∧ (s.codesValid = true → t.codes = s.codes)

/-! ### Reference forms of the rules -/

/-- The key order of R126: weight first, node index second. -/
def keyBefore (nodes : List Node) (x y : Nat) : Bool :=
  decide (weightAt nodes x < weightAt nodes y) || (decide (weightAt nodes x = weightAt nodes y) && decide (x < y))

/-- The minimum of a queue held in any order. -/
def pqLeast (nodes : List Node) : List Nat → Option Nat
  | [] => none
  | x :: xs =>
    match pqLeast nodes xs with
    | none => some x
    | some y => if keyBefore nodes y x then some y else some x

/-- The merge loop over a priority queue: remove the minimum twice, insert the new node (R126). -/
def pqLoop : Nat → List Node → List Nat → List Node
  | 0, nodes, _ => nodes
  | fuel + 1, nodes, queue =>
    match pqLeast nodes queue with
    | none => nodes
    | some a =>
      match pqLeast nodes (queue.erase a) with
      | none => nodes
      | some b =>
        pqLoop fuel (nodes ++ [mergedNode nodes a b]) (nodes.length :: (queue.erase a).erase b)

/-- The tree a priority queue keyed by (weight, node index) builds (R126). -/
def pqBuild (ft : List Entry) : List Node := pqLoop ft.length (leafNodes ft) (List.range ft.length)

/-- DEC_BIT's fourth check in the words of R227, "leaf reached and OSYMS full", for the child that `bv` selects. -/
def leafReachedFull (bv : BitVec 8) (s : State) : Bool :=
  match s.nodes[s.decptr.toNat]? with
  | some (.internal _ l r) =>
    match s.nodes[(if bv = 0#8 then l else r).toNat]? with
    | some (.leaf _ _) => decide (s.osyms.length = s.cfg.osymsCap)
    | _ => false
  | _ => false

/-- The summary table of R227: each command's checks after those of R80, in order, with the code a failed check raises. -/
def guardTable (i : Instr) (s : State) : List (Bool × ECode) :=
  match i with
  | .ftAppend sym =>
    [(decide (s.phase = .built ∨ s.phase = .coded), .sequenceError), (decide (s.arg = 0#32), .malformedFrequencyTable),
     (decide (sym ∈ s.ft.map Entry.sym), .malformedFrequencyTable), (decide (s.n = s.cfg.nmax), .tableFull)]
  | .build => [(decide (s.n = 0), .emptyTable), (decide (2 ^ 32 - 1 < totalCount s.ft), .weightOverflow)]
  | .gencodes => [(decide (s.phase = .empty ∨ s.phase = .loading), .sequenceError)]
  | .encSym sym =>
    [(decide (s.phase ≠ .coded), .sequenceError), (decide (sym ∉ s.ft.map Entry.sym), .unknownSymbol),
     ((s.ft.zip s.codes).any fun p => decide (p.1.sym = sym ∧ s.cfg.obitsCap < s.obits.length + p.2.length), .outputFull)]
  | .decBit bv =>
    [(decide (s.phase = .empty ∨ s.phase = .loading), .sequenceError),
     (decide (1 < bv.toNat), .truncatedOrCorruptStream), (decide (s.n = 1), .truncatedOrCorruptStream),
     (leafReachedFull bv s, .outputFull)]
  | .decEnd =>
    [(decide (s.phase = .empty ∨ s.phase = .loading), .sequenceError),
     (decide (s.decptr.toNat ≠ s.rootIdx), .truncatedOrCorruptStream)]
  | .decRst => [(decide (s.phase = .empty ∨ s.phase = .loading), .sequenceError)]
  | .nop => []
  | .sreset => []
  | .clrerr => []
  | .ftClear => []
  | .fifoClr _ => []

/-- The code of the first failing check, if one fails (R227). -/
def firstFailing (l : List (Bool × ECode)) : Option ECode := (l.find? fun p => p.1).map fun p => p.2

/-- A cell of the phase transition table: the command always raises a code, or it goes to a phase on success and otherwise
raises one of the listed codes (R256). -/
inductive PhaseCell where
  | always (c : ECode)
  | goes (p : Phase) (orRaises : List ECode)
deriving DecidableEq, Repr

/-- The phase transition table of R256, column by column within each row. -/
def phaseTable (i : Instr) (p : Phase) : PhaseCell :=
  match i, p with
  | .nop, p => .goes p []
  | .sreset, _ => .goes .empty []
  | .clrerr, p => .goes p []
  | .ftClear, _ => .goes .empty []
  | .ftAppend _, .empty => .goes .loading [.malformedFrequencyTable, .tableFull]
  | .ftAppend _, .loading => .goes .loading [.malformedFrequencyTable, .tableFull]
  | .ftAppend _, .built => .always .sequenceError
  | .ftAppend _, .coded => .always .sequenceError
  | .build, .empty => .always .emptyTable
  | .build, .loading => .goes .built [.weightOverflow]
  | .build, .built => .goes .built []
  | .build, .coded => .goes .built []
  | .gencodes, .empty => .always .sequenceError
  | .gencodes, .loading => .always .sequenceError
  | .gencodes, .built => .goes .coded []
  | .gencodes, .coded => .goes .coded []
  | .encSym _, .coded => .goes .coded [.unknownSymbol, .outputFull]
  | .encSym _, _ => .always .sequenceError
  | .decBit _, .built => .goes .built [.truncatedOrCorruptStream, .outputFull]
  | .decBit _, .coded => .goes .coded [.truncatedOrCorruptStream, .outputFull]
  | .decBit _, _ => .always .sequenceError
  | .decEnd, .built => .goes .built [.truncatedOrCorruptStream]
  | .decEnd, .coded => .goes .coded [.truncatedOrCorruptStream]
  | .decEnd, _ => .always .sequenceError
  | .decRst, .built => .goes .built []
  | .decRst, .coded => .goes .coded []
  | .decRst, _ => .always .sequenceError
  | .fifoClr _, p => .goes p []

end Sys2Proof.Machine
end

