-- ==== Sys2Proof/Certificates/Slice0/Obligations.lean ====
section
/-! DEFINITION. The statements for the provers. Each docstring names the rule of spec/ it formalises. A next state is written
as an update of the state before it, so what a statement does not name is unchanged. -/

open Sys2Proof Sys2Proof.Machine

/-! ### Encoding (30_encoding.md) -/

/-- R88, R91: decoding the word of a command gives the command back, with every operand at every value. -/
def Obligations.DecodeEncodeRoundTrip : Prop := ∀ i : Instr, decode (encode i) = .cmd i

/-- R88, R89: a command has one word. -/
def Obligations.EncodeOfDecodedWord : Prop := ∀ (w : Word) (i : Instr), decode w = .cmd i → encode i = w

/-- R88: the rows of the opcode map that a word matches are exactly the one row of the command it decodes to, and none for
an illegal word; and the command holds the operand fields of the word. -/
def Obligations.DecoderFollowsOpcodeMap : Prop :=
  ∀ w : Word,
    (opcodeMap.filter (OpRow.hits w)).map OpRow.mnemonic =
      (match decode w with
        | .cmd i => [i.mnemonic]
        | .illegal _ => []) ∧
    (∀ sym, decode w = .cmd (.ftAppend sym) ∨ decode w = .cmd (.encSym sym) → sym.toNat = w.toNat % 2 ^ 16) ∧
    (∀ bv, decode w = .cmd (.decBit bv) → bv.toNat = w.toNat % 2 ^ 8) ∧
    (∀ sel, decode w = .cmd (.fifoClr sel) → sel.toNat = w.toNat % 2 ^ 2)

/-- R91 (encoding column): words of each format decode to the command they stand for. -/
def Obligations.SampleWordsDecode : Prop :=
  decode 0x00000000#32 = .cmd .nop ∧ decode 0x01000000#32 = .cmd .sreset ∧ decode 0x02000000#32 = .cmd .clrerr ∧
  decode 0x03000000#32 = .cmd .ftClear ∧ decode 0x04000001#32 = .cmd (.ftAppend 1#16) ∧
  decode 0x05000000#32 = .cmd .build ∧ decode 0x06000000#32 = .cmd .gencodes ∧
  decode 0x0700FFFF#32 = .cmd (.encSym 0xFFFF#16) ∧ decode 0x080000FF#32 = .cmd (.decBit 0xFF#8) ∧
  decode 0x09000000#32 = .cmd .decEnd ∧ decode 0x0A000000#32 = .cmd .decRst ∧
  decode 0x0B000002#32 = .cmd (.fifoClr 2#2) ∧ decode 0x0C000000#32 = .illegal .unassignedOp ∧
  decode 0x04010000#32 = .illegal .reservedBits

/-- R80, R89: which words are illegal, what executing one does while ERR = 0 (ILLEGAL_COMMAND and nothing else) and while
ERR = 1 (it is discarded). -/
def Obligations.IllegalWordsRaiseOrAreDiscarded : Prop :=
  ∀ (w : Word) (s : State),
    let op := w.toNat / 2 ^ 24
    let illegal := 12 ≤ op ∨ (op ∈ [0, 1, 2, 3, 5, 6, 9, 10] ∧ w.toNat % 2 ^ 24 ≠ 0) ∨
      (op ∈ [4, 7] ∧ w.toNat / 2 ^ 16 % 2 ^ 8 ≠ 0) ∨ (op = 8 ∧ w.toNat / 2 ^ 8 % 2 ^ 16 ≠ 0) ∨
      (op = 11 ∧ w.toNat / 2 ^ 2 % 2 ^ 22 ≠ 0)
    (illegal ↔ ∃ why, decode w = .illegal why) ∧
    (illegal → s.err = false →
      execWord w s = .next { s with err := true, ecode := .illegalCommand, errcmd := w, errarg := s.arg }) ∧
    (illegal → s.err = true → execWord w s = .next s)

/-- R91: each command line assembles to a write of its word to CMD, and a value outside the range is refused. -/
def Obligations.AssemblerWordsAndRanges : Prop :=
  (∀ sym, sym ≤ 65535 →
    assemble (.ftAppend sym) = some (.write 0x010#12 (BitVec.ofNat 32 (0x04000000 + sym))) ∧
    assemble (.encSym sym) = some (.write 0x010#12 (BitVec.ofNat 32 (0x07000000 + sym)))) ∧
  (∀ bv, bv ≤ 255 → assemble (.decBit bv) = some (.write 0x010#12 (BitVec.ofNat 32 (0x08000000 + bv)))) ∧
  (∀ sel, sel ≤ 3 → assemble (.fifoClr sel) = some (.write 0x010#12 (BitVec.ofNat 32 (0x0B000000 + sel)))) ∧
  (∀ v, 65535 < v → assemble (.ftAppend v) = none ∧ assemble (.encSym v) = none) ∧
  (∀ v, 255 < v → assemble (.decBit v) = none) ∧ (∀ v, 3 < v → assemble (.fifoClr v) = none) ∧
  (∀ (r : Reg) (v : Nat), v < 2 ^ 32 → assemble (.wr r v) = some (.write (regOffset r) (BitVec.ofNat 32 v))) ∧
  (∀ (r : Reg) (e : Option Word), assemble (.rd r e) = some (.read (regOffset r))) ∧
  assemble .nop = some (.write 0x010#12 0x00000000#32) ∧ assemble .sreset = some (.write 0x010#12 0x01000000#32) ∧
  assemble .clrerr = some (.write 0x010#12 0x02000000#32) ∧ assemble .ftClear = some (.write 0x010#12 0x03000000#32) ∧
  assemble .build = some (.write 0x010#12 0x05000000#32) ∧ assemble .gencodes = some (.write 0x010#12 0x06000000#32) ∧
  assemble .decEnd = some (.write 0x010#12 0x09000000#32) ∧ assemble .decRst = some (.write 0x010#12 0x0A000000#32)

/-! ### One step and the host interface (20_memory.md) -/

/-- A step runs the decoded command: when the host's next operation writes a command's word to CMD and ERR = 0, the step is
exec of that command in the state from which the operation has been taken (R25, R53, R80). -/
def Obligations.StepRunsDecodedCommand : Prop :=
  ∀ (s : State) (a : Offset) (w : Word) (i : Instr) (rest : List BusOp),
    s.pending = .write a w :: rest → regAt a = some .cmd → s.err = false → decode w = .cmd i →
    step s = exec i { s with pending := rest, pc := s.pc + 1 }

/-- R225: while ERR = 1 a write to CMD has no effect on any state, unless the word is exactly SRESET's or CLRERR's, which
execute. -/
def Obligations.StickyErrorDiscardsCommands : Prop :=
  ∀ (s : State) (a : Offset) (w : Word) (rest : List BusOp),
    s.pending = .write a w :: rest → regAt a = some .cmd → s.err = true →
    (w ≠ 0x01000000#32 → w ≠ 0x02000000#32 → step s = .next { s with pending := rest, pc := s.pc + 1 }) ∧
    (w = 0x01000000#32 → step s = exec .sreset { s with pending := rest, pc := s.pc + 1 }) ∧
    (w = 0x02000000#32 → step s = exec .clrerr { s with pending := rest, pc := s.pc + 1 })

/-- R25: every host operation advances pc by exactly 1 and nothing in the core changes it or the operations to come.
(That a step with no operation left holds the state is the model's choice, log 2; that an assertion of the reset input is
one of the operations and advances pc too is the model's choice, log 3.) -/
def Obligations.EveryHostOperationAdvancesPcByOne : Prop :=
  ∀ s t : State, step s = .next t →
    (∀ op rest, s.pending = op :: rest → t.pc = s.pc + 1 ∧ t.pending = rest) ∧ (s.pending = [] → t = s)

/-- R53, R63: a write to CMD executes the word, a write to ARG or IDX stores the value (also while ERR = 1), any other write
has no effect. -/
def Obligations.HostWriteEffects : Prop :=
  ∀ (s : State) (a : Offset) (v : Word) (rest : List BusOp), s.pending = .write a v :: rest →
    (a.toNat / 4 * 4 = 0x010 → step s = execWord v { s with pending := rest, pc := s.pc + 1 }) ∧
    (a.toNat / 4 * 4 = 0x014 → step s = .next { s with arg := v, pending := rest, pc := s.pc + 1 }) ∧
    (a.toNat / 4 * 4 = 0x044 → step s = .next { s with idx := v, pending := rest, pc := s.pc + 1 }) ∧
    (a.toNat / 4 * 4 ≠ 0x010 → a.toNat / 4 * 4 ≠ 0x014 → a.toNat / 4 * 4 ≠ 0x044 →
      step s = .next { s with pending := rest, pc := s.pc + 1 })

/-- R54: a read returns the register's value at the moment of the read, 0 from CMD and from a reserved offset, and every
read but the two pops leaves the state unchanged (the returned value joins the host's observation, R265). The value of the
registers that show a state element as it is held: ARG (R23), IDX (R24), ERRCMD and ERRARG (R31), DECPTR (R40), and, within
the invariant, NENT (R32), OBITS_CNT (R41) and OSYMS_CNT (R42). -/
def Obligations.ReadsAreFreeOfSideEffects : Prop :=
  (∀ (s : State) (a : Offset) (rest : List BusOp), s.pending = .read a :: rest →
    (∀ r, regAt a = some r → ∃ t, step s = .next t ∧ t.reads = s.reads ++ [regValue r s]) ∧
    (∀ r, regAt a = some r → r ≠ .obitsPop → r ≠ .osymsPop →
      step s = .next { s with pending := rest, pc := s.pc + 1, reads := s.reads ++ [regValue r s] }) ∧
    (a.toNat / 4 * 4 = 0x010 ∨ 0x064 ≤ a.toNat →
      step s = .next { s with pending := rest, pc := s.pc + 1, reads := s.reads ++ [0#32] })) ∧
  (∀ s : State,
    regValue .arg s = s.arg ∧ regValue .idx s = s.idx ∧ regValue .errcmd s = s.errcmd ∧ regValue .errarg s = s.errarg ∧
    (regValue .decptr s).toNat = s.decptr.toNat ∧
    (Inv s → (regValue .nent s).toNat = s.ft.length ∧ (regValue .obitsCnt s).toNat = s.obits.length ∧
      (regValue .osymsCnt s).toNat = s.osyms.length))

/-- R57, R58: the two pops, at every offset that selects them (R52). From a non-empty FIFO a read removes the front element
and returns it with bit 31 set; from an empty one it returns 0 and has no effect. In every phase and while ERR = 1. -/
def Obligations.PopsRemoveTheFront : Prop :=
  ∀ (s : State) (a : Offset) (rest : List BusOp), s.pending = .read a :: rest →
    (regAt a = some .obitsPop →
      (∀ b bs, s.obits = b :: bs → step s = .next { s with
        pending := rest, pc := s.pc + 1, obits := bs,
        reads := s.reads ++ [BitVec.ofNat 32 (2 ^ 31 + (if b then 1 else 0))] }) ∧
      (s.obits = [] → step s = .next { s with pending := rest, pc := s.pc + 1, reads := s.reads ++ [0#32] })) ∧
    (regAt a = some .osymsPop →
      (∀ x xs, s.osyms = x :: xs → step s = .next { s with
        pending := rest, pc := s.pc + 1, osyms := xs,
        reads := s.reads ++ [BitVec.ofNat 32 (2 ^ 31 + x.toNat)] }) ∧
      (s.osyms = [] → step s = .next { s with pending := rest, pc := s.pc + 1, reads := s.reads ++ [0#32] }))

/-- R51, R52, R55: the register map, all 25 rows by their offsets, the ignored low address bits, the reserved offsets. -/
def Obligations.RegisterMapAndIgnoredAddressBits : Prop :=
  (∀ p ∈ [((0x000#12 : Offset), Reg.ident), (0x004#12, .cfgNmax), (0x008#12, .cfgObits), (0x00C#12, .cfgOsyms),
      (0x010#12, .cmd), (0x014#12, .arg), (0x018#12, .status), (0x01C#12, .errcmd), (0x020#12, .errarg),
      (0x024#12, .nent), (0x028#12, .root), (0x02C#12, .rootw), (0x030#12, .decptr), (0x034#12, .obitsCnt),
      (0x038#12, .obitsPop), (0x03C#12, .osymsCnt), (0x040#12, .osymsPop), (0x044#12, .idx), (0x048#12, .ftSym),
      (0x04C#12, .ftCnt), (0x050#12, .nodeW), (0x054#12, .nodeInfo), (0x058#12, .nodeChild), (0x05C#12, .codeLen),
      (0x060#12, .codeBit)],
    regAt p.1 = some p.2 ∧ regOffset p.2 = p.1) ∧
  (∀ r : Reg, regAt (regOffset r) = some r) ∧
  (∀ a b : Offset, a.toNat / 4 = b.toNat / 4 → regAt a = regAt b) ∧
  (∀ a : Offset, regAt a = none ↔ 0x064 ≤ a.toNat) ∧
  regAt 0x016#12 = some .arg ∧ regAt 0x03B#12 = some .obitsPop ∧ regAt 0x043#12 = some .osymsPop ∧
  regAt 0x063#12 = some .codeBit

/-! ### Registers and views (10_state.md) -/

/-- R29: the fields of STATUS, bit by bit; its offset, that writes are ignored, its reset value. -/
def Obligations.StatusFields : Prop :=
  ∀ s : State,
    let v := (regValue .status s).toNat
    v % 2 ^ 3 = (match s.phase with
      | .empty => 0
      | .loading => 1
      | .built => 2
      | .coded => 3) ∧
    v / 2 ^ 3 % 2 = (if s.err then 1 else 0) ∧
    v / 2 ^ 4 % 2 ^ 4 = (match s.ecode with
      | .noError => 0
      | .illegalCommand => 1
      | .sequenceError => 2
      | .emptyTable => 3
      | .malformedFrequencyTable => 4
      | .tableFull => 5
      | .unknownSymbol => 6
      | .truncatedOrCorruptStream => 7
      | .weightOverflow => 8
      | .outputFull => 9) ∧
    v / 2 ^ 8 % 2 = (if (s.phase = .built ∨ s.phase = .coded) ∧ s.decptr.toNat = 2 * s.n - 2 then 1 else 0) ∧
    v / 2 ^ 9 % 2 = (if 0 < s.obits.length then 1 else 0) ∧
    v / 2 ^ 10 % 2 = (if 0 < s.osyms.length then 1 else 0) ∧
    v / 2 ^ 11 = 0 ∧
    regAt 0x018#12 = some .status ∧ (∀ x, memWrite 0x018#12 x s = .next s) ∧ regValue .status State.reset = 0#32

/-- R21, R22: the constant registers show the ID and the instance's parameters, and no step (no write, no reset) changes
what they show. -/
def Obligations.ConstantRegistersNeverChange : Prop :=
  ∀ s : State, s.cfg.wf = true →
    regValue .ident s = 0x48554646#32 ∧ (regValue .cfgNmax s).toNat = s.cfg.nmax ∧
    (regValue .cfgObits s).toNat = s.cfg.obitsCap ∧ (regValue .cfgOsyms s).toNat = s.cfg.osymsCap ∧
    regAt 0x000#12 = some .ident ∧ regAt 0x004#12 = some .cfgNmax ∧ regAt 0x008#12 = some .cfgObits ∧
    regAt 0x00C#12 = some .cfgOsyms ∧
    ∀ t, step s = .next t →
      ∀ r, r ∈ [Reg.ident, Reg.cfgNmax, Reg.cfgObits, Reg.cfgOsyms] → regValue r t = regValue r s

/-- R37, R38: ROOT and ROOTW. With a valid tree, bit 31 and the index 2n−2, and the root's weight, which is the sum of the
counts; else 0. Read-only, reset value 0. -/
def Obligations.RootRegisters : Prop :=
  ∀ s : State, Inv s →
    ((s.phase = .built ∨ s.phase = .coded) →
      (regValue .root s).toNat = 2 ^ 31 + (2 * s.n - 2) ∧ (s.n = 1 → regValue .root s = 0x80000000#32) ∧
      (∃ nd, s.nodes[2 * s.n - 2]? = some nd ∧ regValue .rootw s = nd.weight) ∧
      (regValue .rootw s).toNat = totalCount s.ft) ∧
    ((s.phase = .empty ∨ s.phase = .loading) → regValue .root s = 0#32 ∧ regValue .rootw s = 0#32) ∧
    regAt 0x028#12 = some .root ∧ regAt 0x02C#12 = some .rootw ∧
    (∀ x, memWrite 0x028#12 x s = .next s ∧ memWrite 0x02C#12 x s = .next s) ∧
    regValue .root State.reset = 0#32 ∧ regValue .rootw State.reset = 0#32

/-- R46: the node windows, by IDX[15:0]; read-only. -/
def Obligations.NodeWindows : Prop :=
  ∀ s : State, Inv s →
    let i := s.idx.toNat % 2 ^ 16
    (((s.phase = .built ∨ s.phase = .coded) ∧ i ≤ 2 * s.n - 2) →
      (∃ nd, s.nodes[i]? = some nd) ∧
      (∀ sym wt, s.nodes[i]? = some (.leaf sym wt) →
        regValue .nodeW s = wt ∧ (regValue .nodeInfo s).toNat = 2 ^ 31 + sym.toNat ∧ regValue .nodeChild s = 0#32) ∧
      (∀ wt l r, s.nodes[i]? = some (.internal wt l r) →
        regValue .nodeW s = wt ∧ (regValue .nodeInfo s).toNat = 2 ^ 31 + 2 ^ 30 ∧
        (regValue .nodeChild s).toNat = r.toNat * 2 ^ 16 + l.toNat)) ∧
    (¬((s.phase = .built ∨ s.phase = .coded) ∧ i ≤ 2 * s.n - 2) →
      regValue .nodeW s = 0#32 ∧ regValue .nodeInfo s = 0#32 ∧ regValue .nodeChild s = 0#32) ∧
    regAt 0x050#12 = some .nodeW ∧ regAt 0x054#12 = some .nodeInfo ∧ regAt 0x058#12 = some .nodeChild ∧
    (∀ a x, a ∈ [0x050#12, 0x054#12, 0x058#12] → memWrite a x s = .next s)

/-- R45, R47: the table windows by IDX[15:0], the code windows by IDX[15:0] and IDX[31:16]; read-only. -/
def Obligations.TableAndCodeWindows : Prop :=
  ∀ s : State, Inv s →
    let i := s.idx.toNat % 2 ^ 16
    let j := s.idx.toNat / 2 ^ 16
    (∀ e, s.ft[i]? = some e → (regValue .ftSym s).toNat = e.sym.toNat ∧ regValue .ftCnt s = e.cnt) ∧
    (s.n ≤ i → regValue .ftSym s = 0#32 ∧ regValue .ftCnt s = 0#32) ∧
    (s.phase = .coded → i < s.n → ∃ code, s.codes[i]? = some code ∧
      (regValue .codeLen s).toNat = 2 ^ 31 + code.length ∧
      (∀ b, code[j]? = some b → (regValue .codeBit s).toNat = 2 ^ 31 + (if b then 1 else 0)) ∧
      (code.length ≤ j → regValue .codeBit s = 0#32)) ∧
    (s.phase ≠ .coded ∨ s.n ≤ i → regValue .codeLen s = 0#32 ∧ regValue .codeBit s = 0#32) ∧
    regAt 0x048#12 = some .ftSym ∧ regAt 0x04C#12 = some .ftCnt ∧ regAt 0x05C#12 = some .codeLen ∧
    regAt 0x060#12 = some .codeBit ∧
    (∀ a x, a ∈ [0x048#12, 0x04C#12, 0x05C#12, 0x060#12] → memWrite a x s = .next s)

/-! ### Errors (60_exceptions.md) -/

/-- R224: error entry for a word writes the four error registers and nothing else, and the host reads them so; raising in a
command is error entry for the command's word. -/
def Obligations.ErrorEntryWritesFourRegisters : Prop :=
  ∀ (c : ECode) (w : Word) (s : State),
    let t := errorEntry c w s
    t = { s with err := true, ecode := c, errcmd := w, errarg := s.arg } ∧
    (∀ i, encode i = w → raise c i s = .next t) ∧
    regValue .errcmd t = w ∧ regValue .errarg t = s.arg ∧
    (regValue .status t).toNat / 2 ^ 3 % 2 = 1 ∧ (regValue .status t).toNat / 2 ^ 4 % 2 ^ 4 = c.code.toNat

/-- R222, R226: only the execution of a command word with ERR = 0 raises an error, and then the state differs from the one
before only in the four error registers. -/
def Obligations.ErrorsArePreciseAndComeFromCommands : Prop :=
  ∀ s t : State, s.err = false → step s = .next t → t.err = true →
    ∃ a w rest c, s.pending = .write a w :: rest ∧ regAt a = some .cmd ∧ c ≠ ECode.noError ∧
      t = { s with pending := rest, pc := s.pc + 1, err := true, ecode := c, errcmd := w, errarg := s.arg }

/-- R30, R31, R231: while an error is recorded, a step keeps all four error registers, or clears all four, and clears them
only for SRESET, CLRERR or a hardware reset (as an operation of the pending list: the model's choice, log 3). -/
def Obligations.RecordedErrorIsKeptUntilCleared : Prop :=
  ∀ s t : State, s.err = true → step s = .next t →
    (t.err = true ∧ t.ecode = s.ecode ∧ t.errcmd = s.errcmd ∧ t.errarg = s.errarg) ∨
    (t.err = false ∧ t.ecode = .noError ∧ t.errcmd = 0#32 ∧ t.errarg = 0#32 ∧
      ((∃ ab rest, s.pending = .hwReset ab :: rest) ∨
        ∃ a w rest, s.pending = .write a w :: rest ∧ regAt a = some .cmd ∧ (w = 0x01000000#32 ∨ w = 0x02000000#32)))

/-- R227: the checks in order: the sticky discard, then an illegal word, then the command's own guards; the first failing
check decides the code, and if none fails the command raises no error. -/
def Obligations.FirstFailingCheckDecidesTheCode : Prop :=
  ∀ (w : Word) (s : State), Inv s →
    (s.err = true → w ≠ 0x01000000#32 → w ≠ 0x02000000#32 → execWord w s = .next s) ∧
    (s.err = false →
      match decode w with
      | .illegal _ => execWord w s = .next (errorEntry .illegalCommand w s)
      | .cmd i =>
        match firstFailing (guardTable i s) with
        | some c => execWord w s = .next (errorEntry c w s)
        | none => ∃ t, execWord w s = .next t ∧ t.err = false)

/-- R256: the phase transition table, every cell. -/
def Obligations.PhaseTransitionTable : Prop :=
  ∀ (i : Instr) (s : State), Inv s → s.err = false →
    match phaseTable i s.phase with
    | .always c => exec i s = .next (errorEntry c (encode i) s)
    | .goes p codes => ∃ t, exec i s = .next t ∧
        ((t.err = false ∧ t.phase = p) ∨ ∃ c ∈ codes, t = errorEntry c (encode i) s)

/-! ### Control and reset (45_control.md, 70_reset_and_hazards.md) -/

/-- R200: NOP has no effect. -/
def Obligations.NopHasNoEffect : Prop := ∀ s : State, exec .nop s = .next s ∧ encode .nop = 0x00000000#32

/-- R201: SRESET returns every state element to its reset value (FT listed empty; NODES and CODES keep unobservable
contents, log 5); STATUS then reads 0. -/
def Obligations.SoftResetValues : Prop :=
  ∀ s : State,
    exec .sreset s = .next { s with
      arg := 0#32, idx := 0#32, phase := .empty, err := false, ecode := .noError, errcmd := 0#32, errarg := 0#32,
      ft := [], decptr := 0#16, obits := [], osyms := [] } ∧
    encode .sreset = 0x01000000#32 ∧ ∀ t, exec .sreset s = .next t → regValue .status t = 0#32

/-- R250: the reset input produces the same state as SRESET, with no trace of a command it cut short. (That an assertion of
the reset input is one operation of the pending list, that it advances pc, and that the operations to come and the values
read stay, is the model's choice, log 3; that NODES and CODES keep their unobservable contents is log 5.) -/
def Obligations.HardwareResetEqualsSoftReset : Prop :=
  ∀ (s : State) (abandoned : Option Word) (rest : List BusOp), s.pending = .hwReset abandoned :: rest →
    step s = exec .sreset { s with pending := rest, pc := s.pc + 1 }

/-- R48, R251: what a host reads after a reset, by SRESET or at power-up, whatever the instance and whatever went before. -/
def Obligations.RegistersReadAfterReset : Prop :=
  ∀ t : State, ((∃ s, exec .sreset s = .next t) ∨ ∃ p, t = State.resetFor p) →
    (∀ r, r ∈ [Reg.cmd, .arg, .idx, .status, .errcmd, .errarg, .nent, .root, .rootw, .decptr, .obitsCnt, .obitsPop,
      .osymsCnt, .osymsPop, .ftSym, .ftCnt, .nodeW, .nodeInfo, .nodeChild, .codeLen, .codeBit] → regValue r t = 0#32) ∧
    regValue .ident t = 0x48554646#32

/-- R202: CLRERR, also while ERR = 1, clears the four error registers and touches nothing else; with ERR = 0 it has no
effect; after a command that raised an error it gives back exactly the state before that command. -/
def Obligations.ClearErrorRegisters : Prop :=
  ∀ s : State,
    exec .clrerr s = .next { s with err := false, ecode := .noError, errcmd := 0#32, errarg := 0#32 } ∧
    encode .clrerr = 0x02000000#32 ∧ execWord 0x02000000#32 s = exec .clrerr s ∧
    (Inv s → s.err = false → exec .clrerr s = .next s ∧
      ∀ i t, exec i s = .next t → t.err = true → exec .clrerr t = .next s)

/-- R203: SEL[0] empties OBITS, SEL[1] empties OSYMS, and STATUS shows it; SEL = 0 has no effect; the decoder pointer
stays. -/
def Obligations.FifoClear : Prop :=
  ∀ (s : State) (sel : BitVec 2),
    exec (.fifoClr sel) s = .next { s with
      obits := if sel.toNat % 2 = 1 then [] else s.obits, osyms := if sel.toNat / 2 = 1 then [] else s.osyms } ∧
    exec (.fifoClr 0#2) s = .next s ∧ (encode (.fifoClr sel)).toNat = 0x0B000000 + sel.toNat ∧
    ∀ t, exec (.fifoClr sel) s = .next t →
      (sel.toNat % 2 = 1 → (regValue .status t).toNat / 2 ^ 9 % 2 = 0) ∧
      (sel.toNat / 2 = 1 → (regValue .status t).toNat / 2 ^ 10 % 2 = 0)

/-! ### The frequency table (40_table_load.md) -/

/-- R101: FT_CLEAR empties the table, PHASE and DECPTR, and leaves the FIFOs and everything else. -/
def Obligations.TableClear : Prop :=
  ∀ s : State,
    exec .ftClear s = .next { s with ft := [], phase := .empty, decptr := 0#16 } ∧ encode .ftClear = 0x03000000#32 ∧
    ∀ t, exec .ftClear s = .next t →
      regValue .nent t = 0#32 ∧ regValue .root t = 0#32 ∧ (regValue .status t).toNat / 2 ^ 8 % 2 = 0

/-- R102: FT_APPEND, its four guards in order and its effect. -/
def Obligations.TableAppend : Prop :=
  ∀ (s : State) (sym : Sym),
    let fails := fun c => exec (.ftAppend sym) s = .next (errorEntry c (encode (.ftAppend sym)) s)
    let closed := s.phase = .built ∨ s.phase = .coded
    let present := ∃ e ∈ s.ft, e.sym = sym
    (closed → fails .sequenceError) ∧
    (¬closed → s.arg = 0#32 → fails .malformedFrequencyTable) ∧
    (¬closed → s.arg ≠ 0#32 → present → fails .malformedFrequencyTable) ∧
    (¬closed → s.arg ≠ 0#32 → ¬present → s.n = s.cfg.nmax → fails .tableFull) ∧
    (¬closed → s.arg ≠ 0#32 → ¬present → s.n ≠ s.cfg.nmax →
      exec (.ftAppend sym) s = .next { s with ft := s.ft ++ [{ sym := sym, cnt := s.arg }], phase := .loading }) ∧
    (encode (.ftAppend sym)).toNat = 0x04000000 + sym.toNat

/-- R103, R263: loading entries one by one (`WR ARG, count` then `FT_APPEND sym`) appends them in load order, with no error,
as long as the table stays a mapping with positive counts and within NMAX. -/
def Obligations.LoadingKeepsInsertionOrder : Prop :=
  ∀ (s : State) (es : List Entry), Inv s → s.err = false → (s.phase = .empty ∨ s.phase = .loading) → es ≠ [] →
    ((s.ft ++ es).map Entry.sym).Nodup → (∀ e ∈ es, e.cnt ≠ 0#32) → (s.ft ++ es).length ≤ s.cfg.nmax →
    ∃ last ∈ es, es.getLast? = some last ∧
      runOps (loadOps es) s = .next { s with arg := last.cnt, ft := s.ft ++ es, phase := .loading }

/-! ### The tree builder (41_tree_builder.md) -/

/-- R9: `stable_sort_by(key, s)` is the one sequence that is a permutation of `s`, ascending in `key`, and keeps elements
with equal keys in their order. -/
def Obligations.StableSortIsTheStableSort : Prop :=
  ∀ (key : Nat → Nat) (l l' : List Nat),
    l' = stableSortBy key l ↔
      (l'.Perm l ∧ l'.Pairwise (fun a b => key a ≤ key b) ∧
        ∀ k, l'.filter (fun a => key a = k) = l.filter (fun a => key a = k))

/-- R121: BUILD, its two guards in order and its effect: the tree of R125, PHASE BUILT, DECPTR and DEC_AT_ROOT at the
root. -/
def Obligations.BuildBehaviour : Prop :=
  ∀ s : State, Inv s →
    (s.phase = .empty → exec .build s = .next (errorEntry .emptyTable 0x05000000#32 s)) ∧
    (s.phase ≠ .empty → 2 ^ 32 - 1 < totalCount s.ft →
      exec .build s = .next (errorEntry .weightOverflow 0x05000000#32 s)) ∧
    (s.phase ≠ .empty → totalCount s.ft ≤ 2 ^ 32 - 1 → ∃ t, exec .build s = .next t ∧
      t = { s with nodes := buildTree s.ft, phase := .built, decptr := t.decptr } ∧
      t.decptr.toNat = 2 * s.n - 2 ∧ (regValue .status t).toNat / 2 ^ 8 % 2 = 1) ∧
    encode .build = 0x05000000#32

/-- R127, R122, R36: the shape of the tree: the leaves of the entries in load order, then internal nodes with two different
children of smaller index and the sum of their weights, every node but the root the child of exactly one node, the root's
weight the sum of the counts. -/
def Obligations.BuiltTreeShape : Prop :=
  ∀ ft : List Entry, ft ≠ [] → ft.length ≤ 32768 → totalCount ft ≤ 2 ^ 32 - 1 →
    let ns := buildTree ft
    let n := ft.length
    ns.length = 2 * n - 1 ∧
    (∀ i (h : i < n), ns[i]? = some (.leaf ft[i].sym ft[i].cnt)) ∧
    (∀ k, n ≤ k → k ≤ 2 * n - 2 → ∃ wt l r, ns[k]? = some (.internal wt l r) ∧ l.toNat < k ∧ r.toNat < k ∧
      l ≠ r ∧ wt.toNat = weightAt ns l.toNat + weightAt ns r.toNat) ∧
    (∀ x, x < 2 * n - 2 → ∃ k, IsParent ns k x ∧ ∀ j, IsParent ns j x → j = k) ∧
    (∀ k, ¬IsParent ns k (2 * n - 2)) ∧
    weightAt ns (2 * n - 2) = totalCount ft

/-- R126, R131: the merge algorithm of R125 writes the tree that a priority queue keyed by (weight, node index), held in any
order, gives. -/
def Obligations.MergeSortTreeEqualsPriorityQueueTree : Prop := ∀ ft : List Entry, buildTree ft = pqBuild ft

/-- R128: a table with one entry yields that entry's leaf as the root, at index 0. -/
def Obligations.SingleEntryTree : Prop :=
  ∀ (s : State) (e : Entry), s.ft = [e] → s.phase ≠ .empty →
    ∃ t, exec .build s = .next t ∧
      t = { s with nodes := [.leaf e.sym e.cnt], phase := .built, decptr := 0#16 } ∧
      regValue .root t = 0x80000000#32 ∧ regValue .rootw t = e.cnt

/-- R132: the three tie-break consequences, as trees and codes. -/
def Obligations.TieBreakConsequences : Prop :=
  (∀ a b : Sym,
    let t := buildTree [⟨a, 5#32⟩, ⟨b, 5#32⟩]
    t = [.leaf a 5#32, .leaf b 5#32, .internal 10#32 0#16 1#16] ∧ genCodes 2 t = some [[false], [true]]) ∧
  (∀ a b : Sym,
    let t := buildTree [⟨a, 5#32⟩, ⟨b, 2#32⟩]
    t = [.leaf a 5#32, .leaf b 2#32, .internal 7#32 1#16 0#16] ∧ genCodes 2 t = some [[true], [false]]) ∧
  (∀ a b c d : Sym,
    let t := buildTree [⟨a, 2#32⟩, ⟨b, 1#32⟩, ⟨c, 1#32⟩, ⟨d, 2#32⟩]
    t = [.leaf a 2#32, .leaf b 1#32, .leaf c 1#32, .leaf d 2#32, .internal 2#32 1#16 2#16, .internal 4#32 0#16 3#16,
      .internal 6#32 4#16 5#16] ∧
    genCodes 4 t = some [[true, false], [false, false], [false, true], [true, true]])

/-- R130 (also R124, R13): two BUILDs on tables with the same entries in the same order write the same tree, whatever else
the two states hold, on instances with any parameters; the same entries in another order may give another tree. -/
def Obligations.BuildDependsOnTheTableAlone : Prop :=
  (∀ s s' t t' : State, s.ft = s'.ft → s.err = false → s'.err = false → exec .build s = .next t →
    exec .build s' = .next t' → t.err = false → t'.err = false → t.nodes = t'.nodes ∧ t.decptr = t'.decptr) ∧
  (∃ ft ft' : List Entry, ft.Perm ft' ∧ buildTree ft ≠ buildTree ft')

/-- R129: every leaf's depth is between 1 and n−1 for n ≥ 2, and 0 for n = 1; so every code has at most n−1 ≤ NMAX−1 bits. -/
def Obligations.LeafDepthBound : Prop :=
  (∀ (ft : List Entry) (c : Code) (i : Nat), ft ≠ [] → ft.length ≤ 32768 → totalCount ft ≤ 2 ^ 32 - 1 →
    i < ft.length → Path (buildTree ft) (2 * ft.length - 2) c i →
    (2 ≤ ft.length → 1 ≤ c.length ∧ c.length ≤ ft.length - 1) ∧ (ft.length = 1 → c = [])) ∧
  (∀ s : State, Inv s → s.phase = .coded → ∀ c ∈ s.codes, c.length ≤ s.n - 1 ∧ s.n - 1 ≤ s.cfg.nmax - 1)

/-! ### The code generator (42_code_generator.md) -/

/-- R140 (the codes in the words of R141): GENCODES. Without a tree SEQUENCE_ERROR; with one, CODES[i] is the sequence of
directions on the unique path from the root to leaf i, PHASE is CODED, and nothing else changes; in CODED nothing does. -/
def Obligations.GeneratedCodesAreTheUniquePaths : Prop :=
  ∀ s : State, Inv s →
    ((s.phase = .empty ∨ s.phase = .loading) →
      exec .gencodes s = .next (errorEntry .sequenceError 0x06000000#32 s)) ∧
    ((s.phase = .built ∨ s.phase = .coded) →
      ∃ codes, exec .gencodes s = .next { s with codes := codes, phase := .coded } ∧ codes.length = s.n ∧
        ∀ i, i < s.n → ∃ c, codes[i]? = some c ∧ Path s.nodes (2 * s.n - 2) c i ∧
          ∀ d, Path s.nodes (2 * s.n - 2) d i → d = c) ∧
    (s.phase = .coded → exec .gencodes s = .next s) ∧ encode .gencodes = 0x06000000#32

/-- R142: for one entry the code is the empty bit string, and CODE_LEN reads 0x80000000. -/
def Obligations.SingleEntryCode : Prop :=
  ∀ (s : State) (e : Entry), Inv s → s.ft = [e] → (s.phase = .built ∨ s.phase = .coded) →
    exec .gencodes s = .next { s with codes := [[]], phase := .coded } ∧
    regValue .codeLen { s with codes := [[]], phase := .coded, idx := 0#32 } = 0x80000000#32

/-- R143: for n ≥ 2 the code table is prefix-free, its lengths are between 1 and n−1, its codes are pairwise distinct, and
the Kraft sum is 1 (multiplied by 2^n to stay in the integers). -/
def Obligations.CodeTableProperties : Prop :=
  ∀ s : State, Inv s → s.phase = .coded → 2 ≤ s.n →
    (∀ (i j : Nat) (ci cj : Code), s.codes[i]? = some ci → s.codes[j]? = some cj → i ≠ j → ¬ci <+: cj) ∧
    (∀ c ∈ s.codes, 1 ≤ c.length ∧ c.length ≤ s.n - 1) ∧
    s.codes.Nodup ∧
    (s.codes.map fun c => 2 ^ (s.n - c.length)).sum = 2 ^ s.n

/-! ### The encoder (43_encoder.md) -/

/-- R160, R161: ENC_SYM, its three guards in order and its effect: the whole code of the symbol's entry at the back of OBITS,
or nothing. -/
def Obligations.EncodeSymbolBehaviour : Prop :=
  ∀ (s : State) (sym : Sym), Inv s →
    let fails := fun c => exec (.encSym sym) s = .next (errorEntry c (encode (.encSym sym)) s)
    (s.phase ≠ .coded → fails .sequenceError) ∧
    (s.phase = .coded → (∀ e ∈ s.ft, e.sym ≠ sym) → fails .unknownSymbol) ∧
    (∀ (i : Nat) (e : Entry), s.phase = .coded → s.ft[i]? = some e → e.sym = sym →
      ∃ code, s.codes[i]? = some code ∧
        (s.cfg.obitsCap < s.obits.length + code.length → fails .outputFull) ∧
        (s.obits.length + code.length ≤ s.cfg.obitsCap →
          exec (.encSym sym) s = .next { s with obits := s.obits ++ code }) ∧
        (code ≠ [] → (regValue .status { s with obits := s.obits ++ code }).toNat / 2 ^ 9 % 2 = 1) ∧
        (s.obits = [] → code.length ≤ s.cfg.obitsCap)) ∧
    (encode (.encSym sym)).toNat = 0x07000000 + sym.toNat

/-- R162: successive ENC_SYMs append exactly the concatenation of the codes, in command order. -/
def Obligations.EncodingConcatenatesCodes : Prop :=
  ∀ (s : State) (js : List Nat) (es : List Entry) (cs : List Code), Inv s → s.phase = .coded →
    js.map (fun j => s.ft[j]?) = es.map some → js.map (fun j => s.codes[j]?) = cs.map some →
    s.obits.length + cs.flatten.length ≤ s.cfg.obitsCap →
    execAll (es.map fun e => .encSym e.sym) s = .next { s with obits := s.obits ++ cs.flatten }

/-! ### The decoder (44_decoder.md) -/

/-- R180, R181: DEC_BIT, its four guards in order and its effect: the pointer moves to the child that the bit names, or, when
that is a leaf, its symbol is emitted and the pointer returns to the root; STATUS shows it. -/
def Obligations.DecodeBitBehaviour : Prop :=
  ∀ (s : State) (bv : BitVec 8), Inv s →
    let fails := fun c => exec (.decBit bv) s = .next (errorEntry c (encode (.decBit bv)) s)
    let valid := s.phase = .built ∨ s.phase = .coded
    (¬valid → fails .sequenceError) ∧
    (valid → 1 < bv.toNat → fails .truncatedOrCorruptStream) ∧
    (valid → bv.toNat ≤ 1 → s.n = 1 → fails .truncatedOrCorruptStream) ∧
    (valid → bv.toNat ≤ 1 → s.n ≠ 1 → ∃ wt l r, s.nodes[s.decptr.toNat]? = some (.internal wt l r) ∧
      let c := if bv = 0#8 then l else r
      (∃ nd, s.nodes[c.toNat]? = some nd) ∧
      (∀ wc lc rc, s.nodes[c.toNat]? = some (.internal wc lc rc) →
        exec (.decBit bv) s = .next { s with decptr := c } ∧
        (regValue .status { s with decptr := c }).toNat / 2 ^ 8 % 2 = 0) ∧
      (∀ sym wc, s.nodes[c.toNat]? = some (.leaf sym wc) →
        (∃ e, s.ft[c.toNat]? = some e ∧ sym = e.sym) ∧
        (s.osyms.length = s.cfg.osymsCap → fails .outputFull) ∧
        (s.osyms.length ≠ s.cfg.osymsCap → ∃ t, exec (.decBit bv) s = .next t ∧
          t = { s with osyms := s.osyms ++ [sym], decptr := t.decptr } ∧ t.decptr.toNat = 2 * s.n - 2 ∧
          (regValue .status t).toNat / 2 ^ 8 % 2 = 1 ∧ (regValue .status t).toNat / 2 ^ 10 % 2 = 1))) ∧
    (encode (.decBit bv)).toNat = 0x08000000 + bv.toNat

/-- R182: DEC_END is a check: no effect with the pointer at the root (always so for n = 1), TRUNCATED_OR_CORRUPT_STREAM
elsewhere, SEQUENCE_ERROR without a tree. -/
def Obligations.DecodeEndBehaviour : Prop :=
  ∀ s : State,
    ((s.phase = .empty ∨ s.phase = .loading) →
      exec .decEnd s = .next (errorEntry .sequenceError 0x09000000#32 s)) ∧
    ((s.phase = .built ∨ s.phase = .coded) → s.decptr.toNat ≠ 2 * s.n - 2 →
      exec .decEnd s = .next (errorEntry .truncatedOrCorruptStream 0x09000000#32 s)) ∧
    ((s.phase = .built ∨ s.phase = .coded) → s.decptr.toNat = 2 * s.n - 2 → exec .decEnd s = .next s) ∧
    (Inv s → (s.phase = .built ∨ s.phase = .coded) → s.n = 1 → exec .decEnd s = .next s) ∧
    encode .decEnd = 0x09000000#32

/-- R183: DEC_RST puts the pointer at the root and changes nothing else; SEQUENCE_ERROR without a tree; DEC_AT_ROOT
becomes 1. -/
def Obligations.DecodeResetBehaviour : Prop :=
  ∀ s : State, Inv s →
    ((s.phase = .empty ∨ s.phase = .loading) →
      exec .decRst s = .next (errorEntry .sequenceError 0x0A000000#32 s)) ∧
    ((s.phase = .built ∨ s.phase = .coded) → ∃ t, exec .decRst s = .next t ∧ t = { s with decptr := t.decptr } ∧
      t.decptr.toNat = 2 * s.n - 2 ∧ (regValue .status t).toNat / 2 ^ 8 % 2 = 1) ∧
    encode .decRst = 0x0A000000#32

/-- R184: while the tree is valid, DECPTR is the root or an internal node for n ≥ 2, never a leaf; 0 for n = 1. -/
def Obligations.PointerStaysInTheTree : Prop :=
  ∀ s : State, Inv s → (s.phase = .built ∨ s.phase = .coded) →
    (2 ≤ s.n → s.n ≤ s.decptr.toNat ∧ s.decptr.toNat ≤ 2 * s.n - 2 ∧
      ∃ wt l r, s.nodes[s.decptr.toNat]? = some (.internal wt l r)) ∧
    (s.n = 1 → s.decptr = 0#16)

/-- R186: from the root, the bits of CODES[i] emit exactly FT[i].sym and return to the root, no proper prefix emits anything,
and the concatenation of codes emits the symbols in order, after which DEC_END succeeds. -/
def Obligations.CodesAreRecognised : Prop :=
  ∀ (u : State) (codes : List Code), Inv u → (u.phase = .built ∨ u.phase = .coded) → 2 ≤ u.n →
    u.decptr.toNat = 2 * u.n - 2 → genCodes u.n u.nodes = some codes →
    (∀ (i : Nat) (e : Entry) (c : Code), u.ft[i]? = some e → codes[i]? = some c → u.osyms.length < u.cfg.osymsCap →
      execAll (decBits c) u = .next { u with osyms := u.osyms ++ [e.sym] } ∧
      ∀ p q, c = p ++ q → p ≠ [] → q ≠ [] → ∃ x, execAll (decBits p) u = .next { u with decptr := x } ∧
        x.toNat ≠ 2 * u.n - 2 ∧ ∃ wt l r, u.nodes[x.toNat]? = some (.internal wt l r)) ∧
    (∀ (js : List Nat) (es : List Entry) (cs : List Code), js.map (fun j => u.ft[j]?) = es.map some →
      js.map (fun j => codes[j]?) = cs.map some → u.osyms.length + js.length ≤ u.cfg.osymsCap →
      execAll (decBits cs.flatten ++ [.decEnd]) u = .next { u with osyms := u.osyms ++ es.map Entry.sym })

/-- R187: every string of 0s and 1s is accepted bit by bit; it is a concatenation of codes followed by a proper prefix of a
code, which is non-empty exactly when the pointer ends off the root, and then DEC_END reports it; a bit value other than 0
and 1 is rejected at once. -/
def Obligations.EveryBitStringIsCodesAndAProperPrefix : Prop :=
  ∀ (u : State) (codes : List Code) (bits : Code), Inv u → (u.phase = .built ∨ u.phase = .coded) → 2 ≤ u.n →
    u.decptr.toNat = 2 * u.n - 2 → genCodes u.n u.nodes = some codes →
    u.osyms.length + bits.length ≤ u.cfg.osymsCap →
    ∃ (js : List Nat) (es : List Entry) (cs : List Code) (rem : Code) (x : NodeIdx),
      js.map (fun j => u.ft[j]?) = es.map some ∧ js.map (fun j => codes[j]?) = cs.map some ∧
      bits = cs.flatten ++ rem ∧ (∃ c ∈ codes, rem <+: c ∧ rem ≠ c) ∧
      execAll (decBits bits) u = .next { u with osyms := u.osyms ++ es.map Entry.sym, decptr := x } ∧
      (rem = [] ↔ x.toNat = 2 * u.n - 2) ∧
      (rem ≠ [] → execAll (decBits bits ++ [.decEnd]) u = .next (errorEntry .truncatedOrCorruptStream 0x09000000#32
        { u with osyms := u.osyms ++ es.map Entry.sym, decptr := x })) ∧
      (∀ bv : BitVec 8, 1 < bv.toNat →
        exec (.decBit bv) u = .next (errorEntry .truncatedOrCorruptStream (encode (.decBit bv)) u))

/-- R257, R163, R185: for one entry any number of occurrences encodes to nothing, the empty stream decodes to nothing, and
any bit is an invalid stream. -/
def Obligations.SingleSymbolStreamIsEmpty : Prop :=
  ∀ (s : State) (e : Entry) (k : Nat), Inv s → s.ft = [e] → s.phase = .coded →
    execAll (List.replicate k (.encSym e.sym)) s = .next s ∧ exec .decEnd s = .next s ∧
    ∀ b : Bit, exec (.decBit (bvOf b)) s =
      .next (errorEntry .truncatedOrCorruptStream (encode (.decBit (bvOf b))) s)

/-! ### Whole-machine statements -/

/-- R14: round trip. Whatever ENC_SYM commands append for a sequence of loaded symbols, feeding those bits to a decoder with
the same table at its root yields the same sequence, and DEC_END then succeeds. -/
def Obligations.RoundTrip : Prop :=
  ∀ (s u : State) (syms : List Sym), Inv s → s.phase = .coded → 2 ≤ s.n → (∀ x ∈ syms, x ∈ s.ft.map Entry.sym) →
    s.obits.length + syms.length * (s.n - 1) ≤ s.cfg.obitsCap →
    Inv u → (u.phase = .built ∨ u.phase = .coded) → u.ft = s.ft → u.decptr.toNat = 2 * u.n - 2 →
    u.osyms.length + syms.length ≤ u.cfg.osymsCap →
    ∃ bits, execAll (syms.map .encSym) s = .next { s with obits := s.obits ++ bits } ∧
      execAll (decBits bits ++ [.decEnd]) u = .next { u with osyms := u.osyms ++ syms }

/-- R253, R254, R255, R261: the encode sequence on one instance and the decode sequence on another (of any parameters that
hold the table), as host operations from an empty table: no error, and the symbols come back. -/
def Obligations.EncodeThenDecodeSequences : Prop :=
  ∀ (s u : State) (es : List Entry) (syms : List Sym),
    Inv s → s.err = false → s.phase = .empty → s.obits = [] → Inv u → u.err = false → u.phase = .empty →
    u.osyms = [] → 2 ≤ es.length → es.length ≤ s.cfg.nmax → es.length ≤ u.cfg.nmax → (∀ e ∈ es, e.cnt ≠ 0#32) →
    (es.map Entry.sym).Nodup → totalCount es ≤ 2 ^ 32 - 1 → (∀ x ∈ syms, x ∈ es.map Entry.sym) →
    syms.length * (es.length - 1) ≤ s.cfg.obitsCap → syms.length ≤ u.cfg.osymsCap →
    ∃ t v,
      runOps (loadOps es ++ [cmdOp .build, cmdOp .gencodes] ++ syms.map fun x => cmdOp (.encSym x)) s = .next t ∧
      t.err = false ∧
      runOps (loadOps es ++ [cmdOp .build] ++ (t.obits.map fun b => cmdOp (.decBit (bvOf b))) ++ [cmdOp .decEnd]) u =
        .next v ∧
      v.err = false ∧ v.osyms = syms ∧ v.decptr.toNat = 2 * es.length - 2

/-- R48: the reset state of every legal instance meets the invariant. -/
def Obligations.InvariantHoldsAtReset : Prop := Inv State.reset ∧ ∀ p : Params, p.wf = true → Inv (State.resetFor p)

/-- Every step from a state that meets the invariant (R27, R30 to R42, R184) gives a state that meets it. -/
def Obligations.EveryStepKeepsTheInvariant : Prop := ∀ s t : State, Inv s → step s = .next t → Inv t

/-- R60, R222: from every state that meets the invariant a step answers a next state; no fault and no refusal is reached. -/
def Obligations.EveryStepCompletes : Prop := ∀ s : State, Inv s → ∃ t, step s = .next t

/-- R265, R60, R25: from every state that meets the invariant the host's program runs to its end: after as many steps as it
has operations, none is left, pc has advanced by their number, and the invariant holds. (R25 counts bus operations only: that
an assertion of the reset input is one of the operations and advances pc too is the model's choice, log 3.) -/
def Obligations.EveryProgramRunsToItsEnd : Prop :=
  ∀ s : State, Inv s → ∃ t, core.run s.pending.length s = .next t ∧ t.pending = [] ∧ t.pc = s.pc + s.pending.length ∧
    Inv t

/-- R28, R48: no read and no command shows NODES while the tree is not valid, or CODES while the code table is not valid:
two states that differ in nothing else step alike, with the same values read, and again differ in nothing else. -/
def Obligations.UnobservableContentsStayUnobservable : Prop :=
  ∀ s t : State, SameObservable s t → ResultRel SameObservable (step s) (step t)

/-- R23, R24, R27, R32, R36, R40 to R42, R145, R264: which commands write which state element; every other command leaves
it. (That SRESET keeps NODES and CODES, whose contents R48 leaves unspecified then, is the model's choice, log 5.) -/
def Obligations.WritersOfEachStateElement : Prop :=
  ∀ (i : Instr) (s t : State), exec i s = .next t →
    (t.cfg = s.cfg ∧ t.pending = s.pending ∧ t.pc = s.pc ∧ t.reads = s.reads) ∧
    (i ≠ .sreset → t.arg = s.arg ∧ t.idx = s.idx) ∧
    (i ≠ .build → t.nodes = s.nodes) ∧
    (i ≠ .gencodes → t.codes = s.codes) ∧
    ((∀ x, i ≠ .ftAppend x) → i ≠ .ftClear → i ≠ .sreset → t.ft = s.ft) ∧
    ((∀ x, i ≠ .encSym x) → (∀ x, i ≠ .fifoClr x) → i ≠ .sreset → t.obits = s.obits) ∧
    ((∀ x, i ≠ .decBit x) → (∀ x, i ≠ .fifoClr x) → i ≠ .sreset → t.osyms = s.osyms) ∧
    ((∀ x, i ≠ .decBit x) → i ≠ .build → i ≠ .decRst → i ≠ .ftClear → i ≠ .sreset → t.decptr = s.decptr) ∧
    ((∀ x, i ≠ .ftAppend x) → i ≠ .build → i ≠ .gencodes → i ≠ .ftClear → i ≠ .sreset → t.phase = s.phase)
end

