-- ==== Sys2Proof/Laws/Encoding.lean ====
section
/-! SUPPORT. The encoding as numbers (30_encoding.md R82 to R87): what each word form is worth, and what each field reads. -/

namespace Sys2Proof

theorem toNat_append_add {m n : Nat} (x : BitVec m) (y : BitVec n) :
    (x ++ y).toNat = x.toNat * 2 ^ n + y.toNat := by
  rw [BitVec.toNat_append, ← Nat.shiftLeft_add_eq_or_of_lt y.isLt, Nat.shiftLeft_eq]

theorem wordN_toNat (op : BitVec 8) : (wordN op).toNat = op.toNat * 2 ^ 24 := by
  simp only [wordN, toNat_append_add, BitVec.toNat_ofNat]
  omega

theorem wordS_toNat (op : BitVec 8) (sym : Sym) : (wordS op sym).toNat = op.toNat * 2 ^ 24 + sym.toNat := by
  simp only [wordS, toNat_append_add, BitVec.toNat_ofNat]
  omega

theorem wordB_toNat (op : BitVec 8) (bv : BitVec 8) : (wordB op bv).toNat = op.toNat * 2 ^ 24 + bv.toNat := by
  simp only [wordB, toNat_append_add, BitVec.toNat_ofNat]
  omega

theorem wordM_toNat (op : BitVec 8) (sel : BitVec 2) : (wordM op sel).toNat = op.toNat * 2 ^ 24 + sel.toNat := by
  simp only [wordM, toNat_append_add, BitVec.toNat_ofNat]
  omega

theorem opField_toNat (w : Word) : (opField w).toNat = w.toNat / 2 ^ 24 := by
  have := w.isLt
  simp only [opField, BitVec.extractLsb'_toNat, Nat.shiftRight_eq_div_pow]
  omega

theorem symField_toNat (w : Word) : (symField w).toNat = w.toNat % 2 ^ 16 := by
  simp only [symField, BitVec.extractLsb'_toNat, Nat.shiftRight_zero]

theorem bvField_toNat (w : Word) : (bvField w).toNat = w.toNat % 2 ^ 8 := by
  simp only [bvField, BitVec.extractLsb'_toNat, Nat.shiftRight_zero]

theorem selField_toNat (w : Word) : (selField w).toNat = w.toNat % 2 ^ 2 := by
  simp only [selField, BitVec.extractLsb'_toNat, Nat.shiftRight_zero]

@[simp] theorem opField_wordN (op : BitVec 8) : opField (wordN op) = op := by
  apply BitVec.eq_of_toNat_eq
  rw [opField_toNat, wordN_toNat]
  omega

@[simp] theorem opField_wordS (op : BitVec 8) (sym : Sym) : opField (wordS op sym) = op := by
  apply BitVec.eq_of_toNat_eq
  have := sym.isLt
  rw [opField_toNat, wordS_toNat]
  omega

@[simp] theorem opField_wordB (op : BitVec 8) (bv : BitVec 8) : opField (wordB op bv) = op := by
  apply BitVec.eq_of_toNat_eq
  have := bv.isLt
  rw [opField_toNat, wordB_toNat]
  omega

@[simp] theorem opField_wordM (op : BitVec 8) (sel : BitVec 2) : opField (wordM op sel) = op := by
  apply BitVec.eq_of_toNat_eq
  have := sel.isLt
  rw [opField_toNat, wordM_toNat]
  omega

@[simp] theorem symField_wordS (op : BitVec 8) (sym : Sym) : symField (wordS op sym) = sym := by
  apply BitVec.eq_of_toNat_eq
  have := sym.isLt
  rw [symField_toNat, wordS_toNat]
  omega

@[simp] theorem bvField_wordB (op : BitVec 8) (bv : BitVec 8) : bvField (wordB op bv) = bv := by
  apply BitVec.eq_of_toNat_eq
  have := bv.isLt
  rw [bvField_toNat, wordB_toNat]
  omega

@[simp] theorem selField_wordM (op : BitVec 8) (sel : BitVec 2) : selField (wordM op sel) = sel := by
  apply BitVec.eq_of_toNat_eq
  have := sel.isLt
  rw [selField_toNat, wordM_toNat]
  omega

/-- A bit field of a word, as a number: the reserved bits are zero exactly when the field between is. -/
theorem and_field_eq_zero (w : Word) (lo len : Nat) (mask : Word)
    (hm : mask.toNat = (2 ^ len - 1) * 2 ^ lo) : (w &&& mask = 0#32) ↔ w.toNat / 2 ^ lo % 2 ^ len = 0 := by
  rw [← BitVec.toNat_inj, BitVec.toNat_and, BitVec.toNat_ofNat, hm]
  have h1 : w.toNat &&& (2 ^ len - 1) * 2 ^ lo = (w.toNat / 2 ^ lo % 2 ^ len) * 2 ^ lo := by
    apply Nat.eq_of_testBit_eq
    intro i
    rw [Nat.testBit_and, ← Nat.shiftLeft_eq, ← Nat.shiftLeft_eq, Nat.testBit_shiftLeft, Nat.testBit_shiftLeft,
      Nat.testBit_two_pow_sub_one, Nat.testBit_mod_two_pow, ← Nat.shiftRight_eq_div_pow, Nat.testBit_shiftRight]
    by_cases hi : lo ≤ i
    · have : lo + (i - lo) = i := by omega
      simp [hi, this, Bool.and_comm]
    · simp [hi]
  rw [h1]
  have : 0 < 2 ^ lo := Nat.two_pow_pos lo
  constructor
  · intro h
    have h2 : (0 : Nat) % 2 ^ 32 = 0 := rfl
    rw [h2] at h
    rcases Nat.mul_eq_zero.1 h with h | h <;> omega
  · intro h
    rw [h, Nat.zero_mul]

theorem rsvN_clear (w : Word) : w &&& Format.formN.rsv = 0#32 ↔ w.toNat % 2 ^ 24 = 0 := by
  rw [and_field_eq_zero w 0 24 _ rfl]
  omega

theorem rsvS_clear (w : Word) : w &&& Format.formS.rsv = 0#32 ↔ w.toNat / 2 ^ 16 % 2 ^ 8 = 0 :=
  and_field_eq_zero w 16 8 _ rfl

theorem rsvB_clear (w : Word) : w &&& Format.formB.rsv = 0#32 ↔ w.toNat / 2 ^ 8 % 2 ^ 16 = 0 :=
  and_field_eq_zero w 8 16 _ rfl

theorem rsvM_clear (w : Word) : w &&& Format.formM.rsv = 0#32 ↔ w.toNat / 2 ^ 2 % 2 ^ 22 = 0 :=
  and_field_eq_zero w 2 22 _ rfl

/-- A word that decodes to a command has an assigned OP and clear reserved bits (R89). -/
theorem decode_cases {w : Word} {i : Instr} (h : decode w = .cmd i) :
    ∃ f, commandOf w = some (f, i) ∧ w &&& f.rsv = 0#32 := by
  unfold decode at h
  split at h
  · cases h
  next f j hc =>
    split at h
    · cases h
    next hr =>
      cases h
      exact ⟨f, hc, not_not.1 hr⟩

/-- A word with clear reserved bits is its OP and its operand field put together again (R83 to R87). -/
theorem wordN_of_clear {w : Word} {n : Nat} (ho : (opField w).toNat = n) (h : w &&& Format.formN.rsv = 0#32)
    (hn : n < 256) : wordN (BitVec.ofNat 8 n) = w := by
  apply BitVec.eq_of_toNat_eq
  rw [rsvN_clear] at h
  rw [opField_toNat] at ho
  rw [wordN_toNat, BitVec.toNat_ofNat, Nat.mod_eq_of_lt hn]
  omega

theorem wordS_of_clear {w : Word} {n : Nat} (ho : (opField w).toNat = n) (h : w &&& Format.formS.rsv = 0#32)
    (hn : n < 256) : wordS (BitVec.ofNat 8 n) (symField w) = w := by
  apply BitVec.eq_of_toNat_eq
  rw [rsvS_clear] at h
  rw [opField_toNat] at ho
  rw [wordS_toNat, BitVec.toNat_ofNat, Nat.mod_eq_of_lt hn, symField_toNat]
  omega

theorem wordB_of_clear {w : Word} {n : Nat} (ho : (opField w).toNat = n) (h : w &&& Format.formB.rsv = 0#32)
    (hn : n < 256) : wordB (BitVec.ofNat 8 n) (bvField w) = w := by
  apply BitVec.eq_of_toNat_eq
  rw [rsvB_clear] at h
  rw [opField_toNat] at ho
  rw [wordB_toNat, BitVec.toNat_ofNat, Nat.mod_eq_of_lt hn, bvField_toNat]
  omega

theorem wordM_of_clear {w : Word} {n : Nat} (ho : (opField w).toNat = n) (h : w &&& Format.formM.rsv = 0#32)
    (hn : n < 256) : wordM (BitVec.ofNat 8 n) (selField w) = w := by
  apply BitVec.eq_of_toNat_eq
  rw [rsvM_clear] at h
  rw [opField_toNat] at ho
  rw [wordM_toNat, BitVec.toNat_ofNat, Nat.mod_eq_of_lt hn, selField_toNat]
  omega

end Sys2Proof
end

