-- ==== Sys2Proof/Laws/State.lean ====
section
/-! SUPPORT. One lemma per field for each named update of the state, so that no proof unfolds a record update. -/

namespace Sys2Proof.Machine

section ErrorEntry
variable (code : ECode) (w : Word) (s : State)
@[simp] theorem errorEntry_cfg : (errorEntry code w s).cfg = s.cfg := rfl
@[simp] theorem errorEntry_arg : (errorEntry code w s).arg = s.arg := rfl
@[simp] theorem errorEntry_idx : (errorEntry code w s).idx = s.idx := rfl
@[simp] theorem errorEntry_phase : (errorEntry code w s).phase = s.phase := rfl
@[simp] theorem errorEntry_err : (errorEntry code w s).err = true := rfl
@[simp] theorem errorEntry_ecode : (errorEntry code w s).ecode = code := rfl
@[simp] theorem errorEntry_errcmd : (errorEntry code w s).errcmd = w := rfl
@[simp] theorem errorEntry_errarg : (errorEntry code w s).errarg = s.arg := rfl
@[simp] theorem errorEntry_ft : (errorEntry code w s).ft = s.ft := rfl
@[simp] theorem errorEntry_nodes : (errorEntry code w s).nodes = s.nodes := rfl
@[simp] theorem errorEntry_codes : (errorEntry code w s).codes = s.codes := rfl
@[simp] theorem errorEntry_decptr : (errorEntry code w s).decptr = s.decptr := rfl
@[simp] theorem errorEntry_obits : (errorEntry code w s).obits = s.obits := rfl
@[simp] theorem errorEntry_osyms : (errorEntry code w s).osyms = s.osyms := rfl
@[simp] theorem errorEntry_pending : (errorEntry code w s).pending = s.pending := rfl
@[simp] theorem errorEntry_pc : (errorEntry code w s).pc = s.pc := rfl
@[simp] theorem errorEntry_reads : (errorEntry code w s).reads = s.reads := rfl
@[simp] theorem errorEntry_n : (errorEntry code w s).n = s.n := rfl
@[simp] theorem errorEntry_rootIdx : (errorEntry code w s).rootIdx = s.rootIdx := rfl
@[simp] theorem errorEntry_rootPtr : (errorEntry code w s).rootPtr = s.rootPtr := rfl
@[simp] theorem errorEntry_treeValid : (errorEntry code w s).treeValid = s.treeValid := rfl
@[simp] theorem errorEntry_codesValid : (errorEntry code w s).codesValid = s.codesValid := rfl
end ErrorEntry

section ErrorReturn
variable (s : State)
@[simp] theorem errorReturn_cfg : (errorReturn s).cfg = s.cfg := rfl
@[simp] theorem errorReturn_arg : (errorReturn s).arg = s.arg := rfl
@[simp] theorem errorReturn_idx : (errorReturn s).idx = s.idx := rfl
@[simp] theorem errorReturn_phase : (errorReturn s).phase = s.phase := rfl
@[simp] theorem errorReturn_err : (errorReturn s).err = false := rfl
@[simp] theorem errorReturn_ecode : (errorReturn s).ecode = .noError := rfl
@[simp] theorem errorReturn_errcmd : (errorReturn s).errcmd = 0#32 := rfl
@[simp] theorem errorReturn_errarg : (errorReturn s).errarg = 0#32 := rfl
@[simp] theorem errorReturn_ft : (errorReturn s).ft = s.ft := rfl
@[simp] theorem errorReturn_nodes : (errorReturn s).nodes = s.nodes := rfl
@[simp] theorem errorReturn_codes : (errorReturn s).codes = s.codes := rfl
@[simp] theorem errorReturn_decptr : (errorReturn s).decptr = s.decptr := rfl
@[simp] theorem errorReturn_obits : (errorReturn s).obits = s.obits := rfl
@[simp] theorem errorReturn_osyms : (errorReturn s).osyms = s.osyms := rfl
@[simp] theorem errorReturn_pending : (errorReturn s).pending = s.pending := rfl
@[simp] theorem errorReturn_pc : (errorReturn s).pc = s.pc := rfl
@[simp] theorem errorReturn_reads : (errorReturn s).reads = s.reads := rfl
@[simp] theorem errorReturn_n : (errorReturn s).n = s.n := rfl
@[simp] theorem errorReturn_rootIdx : (errorReturn s).rootIdx = s.rootIdx := rfl
@[simp] theorem errorReturn_rootPtr : (errorReturn s).rootPtr = s.rootPtr := rfl
@[simp] theorem errorReturn_treeValid : (errorReturn s).treeValid = s.treeValid := rfl
@[simp] theorem errorReturn_codesValid : (errorReturn s).codesValid = s.codesValid := rfl
end ErrorReturn

section CoreReset
variable (s : State)
@[simp] theorem coreReset_cfg : (coreReset s).cfg = s.cfg := rfl
@[simp] theorem coreReset_arg : (coreReset s).arg = 0#32 := rfl
@[simp] theorem coreReset_idx : (coreReset s).idx = 0#32 := rfl
@[simp] theorem coreReset_phase : (coreReset s).phase = .empty := rfl
@[simp] theorem coreReset_err : (coreReset s).err = false := rfl
@[simp] theorem coreReset_ecode : (coreReset s).ecode = .noError := rfl
@[simp] theorem coreReset_errcmd : (coreReset s).errcmd = 0#32 := rfl
@[simp] theorem coreReset_errarg : (coreReset s).errarg = 0#32 := rfl
@[simp] theorem coreReset_ft : (coreReset s).ft = [] := rfl
@[simp] theorem coreReset_nodes : (coreReset s).nodes = s.nodes := rfl
@[simp] theorem coreReset_codes : (coreReset s).codes = s.codes := rfl
@[simp] theorem coreReset_decptr : (coreReset s).decptr = 0#16 := rfl
@[simp] theorem coreReset_obits : (coreReset s).obits = [] := rfl
@[simp] theorem coreReset_osyms : (coreReset s).osyms = [] := rfl
@[simp] theorem coreReset_pending : (coreReset s).pending = s.pending := rfl
@[simp] theorem coreReset_pc : (coreReset s).pc = s.pc := rfl
@[simp] theorem coreReset_reads : (coreReset s).reads = s.reads := rfl
@[simp] theorem coreReset_n : (coreReset s).n = 0 := rfl
@[simp] theorem coreReset_rootIdx : (coreReset s).rootIdx = 0 := rfl
@[simp] theorem coreReset_treeValid : (coreReset s).treeValid = false := rfl
@[simp] theorem coreReset_codesValid : (coreReset s).codesValid = false := rfl
end CoreReset

section PushBits
variable (bits : Code) (s : State)
@[simp] theorem pushBits_cfg : (pushBits bits s).cfg = s.cfg := rfl
@[simp] theorem pushBits_arg : (pushBits bits s).arg = s.arg := rfl
@[simp] theorem pushBits_idx : (pushBits bits s).idx = s.idx := rfl
@[simp] theorem pushBits_phase : (pushBits bits s).phase = s.phase := rfl
@[simp] theorem pushBits_err : (pushBits bits s).err = s.err := rfl
@[simp] theorem pushBits_ecode : (pushBits bits s).ecode = s.ecode := rfl
@[simp] theorem pushBits_errcmd : (pushBits bits s).errcmd = s.errcmd := rfl
@[simp] theorem pushBits_errarg : (pushBits bits s).errarg = s.errarg := rfl
@[simp] theorem pushBits_ft : (pushBits bits s).ft = s.ft := rfl
@[simp] theorem pushBits_nodes : (pushBits bits s).nodes = s.nodes := rfl
@[simp] theorem pushBits_codes : (pushBits bits s).codes = s.codes := rfl
@[simp] theorem pushBits_decptr : (pushBits bits s).decptr = s.decptr := rfl
@[simp] theorem pushBits_obits : (pushBits bits s).obits = s.obits ++ bits := rfl
@[simp] theorem pushBits_osyms : (pushBits bits s).osyms = s.osyms := rfl
@[simp] theorem pushBits_pending : (pushBits bits s).pending = s.pending := rfl
@[simp] theorem pushBits_pc : (pushBits bits s).pc = s.pc := rfl
@[simp] theorem pushBits_reads : (pushBits bits s).reads = s.reads := rfl
@[simp] theorem pushBits_n : (pushBits bits s).n = s.n := rfl
@[simp] theorem pushBits_rootIdx : (pushBits bits s).rootIdx = s.rootIdx := rfl
@[simp] theorem pushBits_rootPtr : (pushBits bits s).rootPtr = s.rootPtr := rfl
@[simp] theorem pushBits_treeValid : (pushBits bits s).treeValid = s.treeValid := rfl
@[simp] theorem pushBits_codesValid : (pushBits bits s).codesValid = s.codesValid := rfl
end PushBits

section PushSym
variable (sym : Sym) (s : State)
@[simp] theorem pushSym_cfg : (pushSym sym s).cfg = s.cfg := rfl
@[simp] theorem pushSym_arg : (pushSym sym s).arg = s.arg := rfl
@[simp] theorem pushSym_idx : (pushSym sym s).idx = s.idx := rfl
@[simp] theorem pushSym_phase : (pushSym sym s).phase = s.phase := rfl
@[simp] theorem pushSym_err : (pushSym sym s).err = s.err := rfl
@[simp] theorem pushSym_ecode : (pushSym sym s).ecode = s.ecode := rfl
@[simp] theorem pushSym_errcmd : (pushSym sym s).errcmd = s.errcmd := rfl
@[simp] theorem pushSym_errarg : (pushSym sym s).errarg = s.errarg := rfl
@[simp] theorem pushSym_ft : (pushSym sym s).ft = s.ft := rfl
@[simp] theorem pushSym_nodes : (pushSym sym s).nodes = s.nodes := rfl
@[simp] theorem pushSym_codes : (pushSym sym s).codes = s.codes := rfl
@[simp] theorem pushSym_decptr : (pushSym sym s).decptr = s.decptr := rfl
@[simp] theorem pushSym_obits : (pushSym sym s).obits = s.obits := rfl
@[simp] theorem pushSym_osyms : (pushSym sym s).osyms = s.osyms ++ [sym] := rfl
@[simp] theorem pushSym_pending : (pushSym sym s).pending = s.pending := rfl
@[simp] theorem pushSym_pc : (pushSym sym s).pc = s.pc := rfl
@[simp] theorem pushSym_reads : (pushSym sym s).reads = s.reads := rfl
@[simp] theorem pushSym_n : (pushSym sym s).n = s.n := rfl
@[simp] theorem pushSym_rootIdx : (pushSym sym s).rootIdx = s.rootIdx := rfl
@[simp] theorem pushSym_rootPtr : (pushSym sym s).rootPtr = s.rootPtr := rfl
@[simp] theorem pushSym_treeValid : (pushSym sym s).treeValid = s.treeValid := rfl
@[simp] theorem pushSym_codesValid : (pushSym sym s).codesValid = s.codesValid := rfl
end PushSym

section PopBit
variable (s : State)
@[simp] theorem popBit_cfg : (popBit s).cfg = s.cfg := rfl
@[simp] theorem popBit_arg : (popBit s).arg = s.arg := rfl
@[simp] theorem popBit_idx : (popBit s).idx = s.idx := rfl
@[simp] theorem popBit_phase : (popBit s).phase = s.phase := rfl
@[simp] theorem popBit_err : (popBit s).err = s.err := rfl
@[simp] theorem popBit_ecode : (popBit s).ecode = s.ecode := rfl
@[simp] theorem popBit_errcmd : (popBit s).errcmd = s.errcmd := rfl
@[simp] theorem popBit_errarg : (popBit s).errarg = s.errarg := rfl
@[simp] theorem popBit_ft : (popBit s).ft = s.ft := rfl
@[simp] theorem popBit_nodes : (popBit s).nodes = s.nodes := rfl
@[simp] theorem popBit_codes : (popBit s).codes = s.codes := rfl
@[simp] theorem popBit_decptr : (popBit s).decptr = s.decptr := rfl
@[simp] theorem popBit_obits : (popBit s).obits = s.obits.tail := rfl
@[simp] theorem popBit_osyms : (popBit s).osyms = s.osyms := rfl
@[simp] theorem popBit_pending : (popBit s).pending = s.pending := rfl
@[simp] theorem popBit_pc : (popBit s).pc = s.pc := rfl
@[simp] theorem popBit_reads : (popBit s).reads = s.reads := rfl
@[simp] theorem popBit_n : (popBit s).n = s.n := rfl
@[simp] theorem popBit_rootIdx : (popBit s).rootIdx = s.rootIdx := rfl
@[simp] theorem popBit_rootPtr : (popBit s).rootPtr = s.rootPtr := rfl
@[simp] theorem popBit_treeValid : (popBit s).treeValid = s.treeValid := rfl
@[simp] theorem popBit_codesValid : (popBit s).codesValid = s.codesValid := rfl
end PopBit

section PopSym
variable (s : State)
@[simp] theorem popSym_cfg : (popSym s).cfg = s.cfg := rfl
@[simp] theorem popSym_arg : (popSym s).arg = s.arg := rfl
@[simp] theorem popSym_idx : (popSym s).idx = s.idx := rfl
@[simp] theorem popSym_phase : (popSym s).phase = s.phase := rfl
@[simp] theorem popSym_err : (popSym s).err = s.err := rfl
@[simp] theorem popSym_ecode : (popSym s).ecode = s.ecode := rfl
@[simp] theorem popSym_errcmd : (popSym s).errcmd = s.errcmd := rfl
@[simp] theorem popSym_errarg : (popSym s).errarg = s.errarg := rfl
@[simp] theorem popSym_ft : (popSym s).ft = s.ft := rfl
@[simp] theorem popSym_nodes : (popSym s).nodes = s.nodes := rfl
@[simp] theorem popSym_codes : (popSym s).codes = s.codes := rfl
@[simp] theorem popSym_decptr : (popSym s).decptr = s.decptr := rfl
@[simp] theorem popSym_obits : (popSym s).obits = s.obits := rfl
@[simp] theorem popSym_osyms : (popSym s).osyms = s.osyms.tail := rfl
@[simp] theorem popSym_pending : (popSym s).pending = s.pending := rfl
@[simp] theorem popSym_pc : (popSym s).pc = s.pc := rfl
@[simp] theorem popSym_reads : (popSym s).reads = s.reads := rfl
@[simp] theorem popSym_n : (popSym s).n = s.n := rfl
@[simp] theorem popSym_rootIdx : (popSym s).rootIdx = s.rootIdx := rfl
@[simp] theorem popSym_rootPtr : (popSym s).rootPtr = s.rootPtr := rfl
@[simp] theorem popSym_treeValid : (popSym s).treeValid = s.treeValid := rfl
@[simp] theorem popSym_codesValid : (popSym s).codesValid = s.codesValid := rfl
end PopSym

section LogRead
variable (v : Word) (s : State)
@[simp] theorem logRead_cfg : (logRead v s).cfg = s.cfg := rfl
@[simp] theorem logRead_arg : (logRead v s).arg = s.arg := rfl
@[simp] theorem logRead_idx : (logRead v s).idx = s.idx := rfl
@[simp] theorem logRead_phase : (logRead v s).phase = s.phase := rfl
@[simp] theorem logRead_err : (logRead v s).err = s.err := rfl
@[simp] theorem logRead_ecode : (logRead v s).ecode = s.ecode := rfl
@[simp] theorem logRead_errcmd : (logRead v s).errcmd = s.errcmd := rfl
@[simp] theorem logRead_errarg : (logRead v s).errarg = s.errarg := rfl
@[simp] theorem logRead_ft : (logRead v s).ft = s.ft := rfl
@[simp] theorem logRead_nodes : (logRead v s).nodes = s.nodes := rfl
@[simp] theorem logRead_codes : (logRead v s).codes = s.codes := rfl
@[simp] theorem logRead_decptr : (logRead v s).decptr = s.decptr := rfl
@[simp] theorem logRead_obits : (logRead v s).obits = s.obits := rfl
@[simp] theorem logRead_osyms : (logRead v s).osyms = s.osyms := rfl
@[simp] theorem logRead_pending : (logRead v s).pending = s.pending := rfl
@[simp] theorem logRead_pc : (logRead v s).pc = s.pc := rfl
@[simp] theorem logRead_reads : (logRead v s).reads = s.reads ++ [v] := rfl
@[simp] theorem logRead_n : (logRead v s).n = s.n := rfl
@[simp] theorem logRead_rootIdx : (logRead v s).rootIdx = s.rootIdx := rfl
@[simp] theorem logRead_rootPtr : (logRead v s).rootPtr = s.rootPtr := rfl
@[simp] theorem logRead_treeValid : (logRead v s).treeValid = s.treeValid := rfl
@[simp] theorem logRead_codesValid : (logRead v s).codesValid = s.codesValid := rfl
end LogRead

section Advance
variable (rest : List BusOp) (s : State)
@[simp] theorem advance_cfg : (advance rest s).cfg = s.cfg := rfl
@[simp] theorem advance_arg : (advance rest s).arg = s.arg := rfl
@[simp] theorem advance_idx : (advance rest s).idx = s.idx := rfl
@[simp] theorem advance_phase : (advance rest s).phase = s.phase := rfl
@[simp] theorem advance_err : (advance rest s).err = s.err := rfl
@[simp] theorem advance_ecode : (advance rest s).ecode = s.ecode := rfl
@[simp] theorem advance_errcmd : (advance rest s).errcmd = s.errcmd := rfl
@[simp] theorem advance_errarg : (advance rest s).errarg = s.errarg := rfl
@[simp] theorem advance_ft : (advance rest s).ft = s.ft := rfl
@[simp] theorem advance_nodes : (advance rest s).nodes = s.nodes := rfl
@[simp] theorem advance_codes : (advance rest s).codes = s.codes := rfl
@[simp] theorem advance_decptr : (advance rest s).decptr = s.decptr := rfl
@[simp] theorem advance_obits : (advance rest s).obits = s.obits := rfl
@[simp] theorem advance_osyms : (advance rest s).osyms = s.osyms := rfl
@[simp] theorem advance_pending : (advance rest s).pending = rest := rfl
@[simp] theorem advance_pc : (advance rest s).pc = s.pc + 1 := rfl
@[simp] theorem advance_reads : (advance rest s).reads = s.reads := rfl
@[simp] theorem advance_n : (advance rest s).n = s.n := rfl
@[simp] theorem advance_rootIdx : (advance rest s).rootIdx = s.rootIdx := rfl
@[simp] theorem advance_rootPtr : (advance rest s).rootPtr = s.rootPtr := rfl
@[simp] theorem advance_treeValid : (advance rest s).treeValid = s.treeValid := rfl
@[simp] theorem advance_codesValid : (advance rest s).codesValid = s.codesValid := rfl
end Advance

/-! ### The validity views, by phase -/

theorem State.treeValid_iff {s : State} : s.treeValid = true ↔ s.phase = .built ∨ s.phase = .coded := by
  simp [State.treeValid]

theorem State.treeValid_false_iff {s : State} : s.treeValid = false ↔ s.phase = .empty ∨ s.phase = .loading := by
  unfold State.treeValid
  cases s.phase <;> decide

theorem State.codesValid_iff {s : State} : s.codesValid = true ↔ s.phase = .coded := by simp [State.codesValid]

theorem State.treeValid_of_codesValid {s : State} (h : s.codesValid = true) : s.treeValid = true :=
  State.treeValid_iff.2 (.inr (State.codesValid_iff.1 h))

end Sys2Proof.Machine
end

