-- ==== Sys2Proof/Laws/Ops.lean ====
section
/-! SUPPORT. What each shared operation can do: raising an error, looking up a symbol, reading an operand bit. -/

namespace Sys2Proof.Machine

/-- Raising never stops the machine, and its next state is the error entry (R224). -/
theorem raise_eq_next {code : ECode} {i : Instr} {s t : State} :
    raise code i s = .next t ↔ t = errorEntry code (encode i) s := by
  simp [raise, eq_comm]

theorem raise_ne_fault {code : ECode} {i : Instr} {s : State} {f : Fault} : raise code i s ≠ .fault f := by
  simp [raise]

theorem raise_ne_refused {code : ECode} {i : Instr} {s : State} {r : Refusal} : raise code i s ≠ .refused r := by
  simp [raise]

/-- Lookup finds an entry that has the symbol (R161). -/
theorem lookupSym_some {sym : Sym} {ft : List Entry} {i : Nat} (h : lookupSym sym ft = some i) :
    ∃ hi : i < ft.length, ft[i].sym = sym := by
  unfold lookupSym at h
  rw [List.findIdx?_eq_some_iff_getElem] at h
  obtain ⟨hi, hs, -⟩ := h
  exact ⟨hi, by simpa using hs⟩

theorem lookupSym_none {sym : Sym} {ft : List Entry} :
    lookupSym sym ft = none ↔ sym ∉ ft.map Entry.sym := by
  simp [lookupSym, List.findIdx?_eq_none_iff]

theorem lookupSym_isSome {sym : Sym} {ft : List Entry} :
    (lookupSym sym ft).isSome = true ↔ sym ∈ ft.map Entry.sym := by
  rw [← not_iff_not, ← lookupSym_none]
  cases lookupSym sym ft <;> simp

/-- With distinct symbols Lookup is "the unique entry index" (R161). -/
theorem lookupSym_getElem {ft : List Entry} (hd : (ft.map Entry.sym).Nodup) {i : Nat} (hi : i < ft.length) :
    lookupSym ft[i].sym ft = some i := by
  cases h : lookupSym ft[i].sym ft with
  | none => exact absurd (List.mem_map.2 ⟨ft[i], List.getElem_mem hi, rfl⟩) (lookupSym_none.1 h)
  | some j =>
    obtain ⟨hj, hs⟩ := lookupSym_some h
    have := (List.Nodup.getElem_inj_iff (l := ft.map Entry.sym) hd (i := j) (j := i) (hi := by simpa) (hj := by simpa)).1
      (by simpa using hs)
    rw [this]

/-- BV stands for a bit exactly when it is 0 or 1 (R87). -/
theorem bitOf_bvOf (b : Bit) : bitOf (bvOf b) = some b := by cases b <;> rfl

theorem bitOf_some {bv : BitVec 8} {b : Bit} : bitOf bv = some b ↔ bv = bvOf b := by
  unfold bitOf bvOf
  constructor
  · intro h
    split at h
    next h0 => cases h; simp [h0]
    next =>
      split at h
      next h1 => cases h; simp [h1]
      next => cases h
  · rintro rfl
    cases b <;> rfl

theorem bitOf_none {bv : BitVec 8} : bitOf bv = none ↔ 1 < bv.toNat := by
  unfold bitOf
  split
  next h => subst h; decide
  next h0 =>
    split
    next h => subst h; decide
    next h1 =>
      refine ⟨fun _ => ?_, fun _ => rfl⟩
      have h0' : bv.toNat ≠ 0 := fun h => h0 (BitVec.eq_of_toNat_eq h)
      have h1' : bv.toNat ≠ 1 := fun h => h1 (BitVec.eq_of_toNat_eq h)
      omega

/-- The target of a decoder step: the pointer is at an internal node, and the target is the child it names (R181). -/
theorem decTarget_some {b : Bit} {s : State} {c : NodeIdx} {nd : Node} :
    decTarget b s = some (c, nd) ↔ ∃ wt l r, s.nodes[s.decptr.toNat]? = some (.internal wt l r) ∧
      c = (if b then r else l) ∧ s.nodes[c.toNat]? = some nd := by
  unfold decTarget
  cases hp : s.nodes[s.decptr.toNat]? with
  | none => simp
  | some p =>
    cases p with
    | leaf sym wt => simp [Node.child]
    | internal wt l r =>
      simp only [Node.child]
      cases hc : s.nodes[(if b then r else l).toNat]? with
      | none =>
        simp only [reduceCtorEq, Option.some.injEq, Node.internal.injEq, false_iff, not_exists]
        rintro wt' l' r' ⟨⟨-, rfl, rfl⟩, rfl, h⟩
        rw [hc] at h
        cases h
      | some nd' =>
        constructor
        · intro h
          cases h
          exact ⟨wt, l, r, rfl, rfl, hc⟩
        · rintro ⟨wt', l', r', h, rfl, h'⟩
          cases h
          rw [hc] at h'
          cases h'
          rfl

end Sys2Proof.Machine
end

