-- ==== Sys2Proof/Laws/Exec.lean ====
section
/-! SUPPORT. Inversion, said once: what a command can answer (`Raises` or `Effect`), what a host operation can answer
(`OpEffect`), what a step can answer. Later proofs cite these and unfold no meaning. -/

namespace Sys2Proof.Machine

/-- The command ended in an error entry with a code of its own (R224). -/
def Raises (i : Instr) (s t : State) : Prop := ∃ c, c ≠ .noError ∧ t = errorEntry c (encode i) s

/-- The command had its effect: the conditions under which it has one, and the state it leaves. -/
def Effect (i : Instr) (s t : State) : Prop :=
  match i with
  | .nop => t = s
  | .sreset => t = coreReset s
  | .clrerr => t = errorReturn s
  | .ftClear => t = { s with ft := [], phase := .empty, decptr := 0#16 }
  | .ftAppend sym => s.treeValid = false ∧ s.arg ≠ 0#32 ∧ sym ∉ s.ft.map Entry.sym ∧ s.n ≠ s.cfg.nmax ∧
      t = { s with ft := s.ft ++ [{ sym := sym, cnt := s.arg }], phase := .loading }
  | .build => s.phase ≠ .empty ∧ totalCount s.ft ≤ 2 ^ 32 - 1 ∧
      t = { s with nodes := buildTree s.ft, phase := .built, decptr := s.rootPtr }
  | .gencodes => s.treeValid = true ∧ ∃ codes, genCodes s.n s.nodes = some codes ∧
      t = { s with codes := codes, phase := .coded }
  | .encSym sym => s.codesValid = true ∧ ∃ j code, lookupSym sym s.ft = some j ∧ s.codes[j]? = some code ∧
      s.obits.length + code.length ≤ s.cfg.obitsCap ∧ t = pushBits code s
  | .decBit bv => s.treeValid = true ∧ s.n ≠ 1 ∧ ∃ b c nd, bitOf bv = some b ∧ decTarget b s = some (c, nd) ∧
      ((∃ sym wt, nd = .leaf sym wt ∧ s.osyms.length ≠ s.cfg.osymsCap ∧
          t = { pushSym sym s with decptr := s.rootPtr }) ∨
        (∃ wt l r, nd = .internal wt l r ∧ t = { s with decptr := c }))
  | .decEnd => s.treeValid = true ∧ s.decptr.toNat = s.rootIdx ∧ t = s
  | .decRst => s.treeValid = true ∧ t = { s with decptr := s.rootPtr }
  | .fifoClr sel => t = { s with obits := if sel.getLsbD 0 then [] else s.obits,
                                 osyms := if sel.getLsbD 1 then [] else s.osyms }

theorem raises_of_raise {code : ECode} {i : Instr} {s t : State} (hc : code ≠ .noError)
    (h : raise code i s = .next t) : Raises i s t := ⟨code, hc, raise_eq_next.1 h⟩

theorem execFtAppend_next {sym : Sym} {s t : State} (h : execFtAppend sym s = .next t) :
    Raises (.ftAppend sym) s t ∨ Effect (.ftAppend sym) s t := by
  unfold execFtAppend at h
  split at h
  · exact .inl (raises_of_raise (by decide) h)
  split at h
  · exact .inl (raises_of_raise (by decide) h)
  split at h
  · exact .inl (raises_of_raise (by decide) h)
  split at h
  · exact .inl (raises_of_raise (by decide) h)
  next h1 h2 h3 h4 =>
    cases h
    exact .inr ⟨by simpa using h1, h2, fun hm => h3 (lookupSym_isSome.2 hm), h4, rfl⟩

theorem execBuild_next {s t : State} (h : execBuild s = .next t) : Raises .build s t ∨ Effect .build s t := by
  unfold execBuild at h
  split at h
  · exact .inl (raises_of_raise (by decide) h)
  split at h
  · exact .inl (raises_of_raise (by decide) h)
  next h1 h2 =>
    cases h
    exact .inr ⟨h1, by omega, rfl⟩

theorem execGencodes_next {s t : State} (h : execGencodes s = .next t) :
    Raises .gencodes s t ∨ Effect .gencodes s t := by
  unfold execGencodes at h
  split at h
  next hv =>
    split at h
    · cases h
    next codes hc =>
      cases h
      exact .inr ⟨hv, codes, hc, rfl⟩
  next => exact .inl (raises_of_raise (by decide) h)

theorem execEncSym_next {sym : Sym} {s t : State} (h : execEncSym sym s = .next t) :
    Raises (.encSym sym) s t ∨ Effect (.encSym sym) s t := by
  unfold execEncSym at h
  split at h
  next hv =>
    split at h
    · exact .inl (raises_of_raise (by decide) h)
    next j hj =>
      split at h
      · cases h
      next code hc =>
        split at h
        · exact .inl (raises_of_raise (by decide) h)
        next hroom =>
          cases h
          exact .inr ⟨hv, j, code, hj, hc, by omega, rfl⟩
  next => exact .inl (raises_of_raise (by decide) h)

theorem execDecBit_next {bv : BitVec 8} {s t : State} (h : execDecBit bv s = .next t) :
    Raises (.decBit bv) s t ∨ Effect (.decBit bv) s t := by
  unfold execDecBit at h
  split at h
  next hv =>
    split at h
    · exact .inl (raises_of_raise (by decide) h)
    next b hb =>
      split at h
      · exact .inl (raises_of_raise (by decide) h)
      next hn =>
        split at h
        · cases h
        next c sym wt ht =>
          split at h
          · exact .inl (raises_of_raise (by decide) h)
          next hroom =>
            cases h
            exact .inr ⟨hv, hn, b, _, _, hb, ht, .inl ⟨sym, wt, rfl, hroom, rfl⟩⟩
        next c wt l r ht =>
          cases h
          exact .inr ⟨hv, hn, b, _, _, hb, ht, .inr ⟨wt, l, r, rfl, rfl⟩⟩
  next => exact .inl (raises_of_raise (by decide) h)

theorem execDecEnd_next {s t : State} (h : execDecEnd s = .next t) : Raises .decEnd s t ∨ Effect .decEnd s t := by
  unfold execDecEnd at h
  split at h
  next hv =>
    split at h
    · exact .inl (raises_of_raise (by decide) h)
    next hp =>
      cases h
      exact .inr ⟨hv, by simpa using hp, rfl⟩
  next => exact .inl (raises_of_raise (by decide) h)

theorem execDecRst_next {s t : State} (h : execDecRst s = .next t) : Raises .decRst s t ∨ Effect .decRst s t := by
  unfold execDecRst at h
  split at h
  next hv =>
    cases h
    exact .inr ⟨hv, rfl⟩
  next => exact .inl (raises_of_raise (by decide) h)

/-- What a command can answer as a next state: an error entry or its effect. -/
theorem exec_next {i : Instr} {s t : State} (h : exec i s = .next t) : Raises i s t ∨ Effect i s t := by
  cases i with
  | nop => cases h; exact .inr rfl
  | sreset => cases h; exact .inr rfl
  | clrerr => cases h; exact .inr rfl
  | ftClear => cases h; exact .inr rfl
  | ftAppend sym => exact execFtAppend_next h
  | build => exact execBuild_next h
  | gencodes => exact execGencodes_next h
  | encSym sym => exact execEncSym_next h
  | decBit bv => exact execDecBit_next h
  | decEnd => exact execDecEnd_next h
  | decRst => exact execDecRst_next h
  | fifoClr sel => cases h; exact .inr rfl

/-- No command is refused. -/
theorem exec_ne_refused {i : Instr} {s : State} {r : Refusal} : exec i s ≠ .refused r := by
  intro h
  cases i <;> simp only [exec, execNop, execSreset, execClrerr, execFtClear, execFtAppend, execBuild, execGencodes,
    execEncSym, execDecBit, execDecEnd, execDecRst, execFifoClr, raise] at h <;> (repeat' split at h) <;> cases h

/-- What a write to CMD can answer (R80). -/
def CmdEffect (w : Word) (s t : State) : Prop :=
  (s.err = true ∧ w = sresetWord ∧ t = coreReset s) ∨
  (s.err = true ∧ w = clrerrWord ∧ t = errorReturn s) ∨
  (s.err = true ∧ w ≠ sresetWord ∧ w ≠ clrerrWord ∧ t = s) ∨
  (s.err = false ∧ (∃ why, decode w = .illegal why) ∧ t = errorEntry .illegalCommand w s) ∨
  (s.err = false ∧ ∃ i, decode w = .cmd i ∧ exec i s = .next t)

theorem execWord_next {w : Word} {s t : State} (h : execWord w s = .next t) : CmdEffect w s t := by
  unfold execWord at h
  split at h
  next he =>
    split at h
    next hw => cases h; exact .inl ⟨he, hw, rfl⟩
    next hw =>
      split at h
      next hw' => cases h; exact .inr (.inl ⟨he, hw', rfl⟩)
      next hw' => cases h; exact .inr (.inr (.inl ⟨he, hw, hw', rfl⟩))
  next he =>
    have he : s.err = false := by simpa using he
    split at h
    next why hd => cases h; exact .inr (.inr (.inr (.inl ⟨he, ⟨why, hd⟩, rfl⟩)))
    next i hd => exact .inr (.inr (.inr (.inr ⟨he, i, hd, h⟩)))

/-- What a host operation can answer (R53, R54, R250). -/
def OpEffect (op : BusOp) (s t : State) : Prop :=
  match op with
  | .read a => t = logRead (memReadValue a s) (memReadEffect a s)
  | .write a v => (regAt a = some .cmd ∧ CmdEffect v s t) ∨ (regAt a = some .arg ∧ t = { s with arg := v }) ∨
      (regAt a = some .idx ∧ t = { s with idx := v }) ∨
      (regAt a ≠ some .cmd ∧ regAt a ≠ some .arg ∧ regAt a ≠ some .idx ∧ t = s)
  | .hwReset _ => t = coreReset s

theorem runBusOp_next {op : BusOp} {s t : State} (h : runBusOp op s = .next t) : OpEffect op s t := by
  cases op with
  | read a => cases h; rfl
  | hwReset ab => cases h; rfl
  | write a v =>
    simp only [runBusOp, memWrite] at h
    split at h
    next hr => exact .inl ⟨hr, execWord_next h⟩
    next hr => cases h; exact .inr (.inl ⟨hr, rfl⟩)
    next hr => cases h; exact .inr (.inr (.inl ⟨hr, rfl⟩))
    next h1 h2 h3 => cases h; exact .inr (.inr (.inr ⟨h1, h2, h3, rfl⟩))

/-- What a step can answer: idle, or the effect of the host's next operation. -/
theorem step_next {s t : State} (h : step s = .next t) :
    (s.pending = [] ∧ t = s) ∨ ∃ op rest, s.pending = op :: rest ∧ OpEffect op (advance rest s) t := by
  unfold step at h
  split at h
  next hp => cases h; exact .inl ⟨hp, rfl⟩
  next op rest hp => exact .inr ⟨op, rest, hp, runBusOp_next h⟩

/-- A read changes the two FIFOs at most, by a pop (R54). -/
theorem memReadEffect_cases (a : Offset) (s : State) :
    (regAt a = some .obitsPop ∧ memReadEffect a s = popBit s) ∨
    (regAt a = some .osymsPop ∧ memReadEffect a s = popSym s) ∨
    (regAt a ≠ some .obitsPop ∧ regAt a ≠ some .osymsPop ∧ memReadEffect a s = s) := by
  unfold memReadEffect
  cases h : regAt a with
  | none => simp
  | some r => cases r <;> simp [readEffect]

end Sys2Proof.Machine
end

