-- ==== Sys2Proof/Laws/Bus.lean ====
section
/-! SUPPORT. The register interface as numbers: which register an offset selects, the STATUS word, the fields of IDX; and
what every operation leaves of the host's side. -/

namespace Sys2Proof.Machine

theorem wordIndex_toNat (a : Offset) : (a.extractLsb' 2 10).toNat = a.toNat / 4 := by
  have := a.isLt
  simp only [BitVec.extractLsb'_toNat, Nat.shiftRight_eq_div_pow]
  omega

theorem regAt_eq (a : Offset) : regAt a = regList[a.toNat / 4]? := by rw [regAt, wordIndex_toNat]

/-- Zero extension keeps the number. -/
@[simp] theorem zext16_toNat (v : BitVec 16) : (zext16 v).toNat = v.toNat := by
  simp only [zext16, toNat_append_add, BitVec.toNat_ofNat]
  omega

theorem idxI_eq (s : State) : s.idxI = s.idx.toNat % 2 ^ 16 := by
  simp [State.idxI, BitVec.extractLsb'_toNat]

theorem idxJ_eq (s : State) : s.idxJ = s.idx.toNat / 2 ^ 16 := by
  have := s.idx.isLt
  simp only [State.idxJ, BitVec.extractLsb'_toNat, Nat.shiftRight_eq_div_pow]
  omega

/-- STATUS as a sum of its fields (R29). -/
theorem status_toNat (s : State) : s.status.toNat =
    (if 0 < s.osyms.length then 1 else 0) * 2 ^ 10 + (if 0 < s.obits.length then 1 else 0) * 2 ^ 9 +
      (if s.decAtRoot then 1 else 0) * 2 ^ 8 + s.ecode.code.toNat * 2 ^ 4 + (if s.err then 1 else 0) * 2 ^ 3 +
      s.phase.code.toNat := by
  have e : ∀ p : Prop, [Decidable p] → (decide p).toNat = if p then 1 else 0 := by
    intro p _
    by_cases p <;> simp [*]
  have e2 : ∀ b : Bool, b.toNat = if b then 1 else 0 := by
    intro b
    cases b <;> rfl
  unfold State.status
  simp only [toNat_append_add, BitVec.toNat_ofNat, BitVec.toNat_ofBool, e, e2]
  omega

/-- The host's side and the parameters are outside every command. -/
theorem exec_host {i : Instr} {s t : State} (h : exec i s = .next t) :
    t.cfg = s.cfg ∧ t.pending = s.pending ∧ t.pc = s.pc ∧ t.reads = s.reads := by
  rcases exec_next h with ⟨c, -, rfl⟩ | h
  · simp
  · cases i <;> simp only [Effect] at h
    case decBit =>
      obtain ⟨-, -, b, c, nd, -, -, h⟩ := h
      rcases h with ⟨_, _, -, -, rfl⟩ | ⟨_, _, _, -, rfl⟩ <;> simp
    case encSym =>
      obtain ⟨-, _, _, -, -, -, rfl⟩ := h
      simp
    case ftAppend =>
      obtain ⟨-, -, -, -, rfl⟩ := h
      simp
    case build =>
      obtain ⟨-, -, rfl⟩ := h
      simp
    case gencodes =>
      obtain ⟨-, _, -, rfl⟩ := h
      simp
    case decEnd =>
      obtain ⟨-, -, rfl⟩ := h
      simp
    case decRst =>
      obtain ⟨-, rfl⟩ := h
      simp
    all_goals
      subst h
      simp

/-- An operation leaves the parameters, the operations to come and pc. -/
theorem OpEffect.host {op : BusOp} {s t : State} (h : OpEffect op s t) :
    t.cfg = s.cfg ∧ t.pending = s.pending ∧ t.pc = s.pc := by
  cases op with
  | read a =>
    simp only [OpEffect] at h
    subst h
    rcases memReadEffect_cases a s with ⟨-, h⟩ | ⟨-, h⟩ | ⟨-, -, h⟩ <;> simp [h]
  | hwReset ab =>
    simp only [OpEffect] at h
    subst h
    simp
  | write a v =>
    rcases h with ⟨-, h⟩ | ⟨-, rfl⟩ | ⟨-, rfl⟩ | ⟨-, -, -, rfl⟩ <;> try simp
    rcases h with ⟨-, -, rfl⟩ | ⟨-, -, rfl⟩ | ⟨-, -, -, rfl⟩ | ⟨-, -, rfl⟩ | ⟨-, i, -, h⟩ <;> try simp
    have := exec_host h
    exact ⟨this.1, this.2.1, this.2.2.1⟩

end Sys2Proof.Machine
end

