-- ==== Sys2Proof/Laws/Sort.lean ====
section
/-! SUPPORT. The stable sort of 00_scope.md R9: it permutes, it sorts, it keeps equal keys in order, and (41_tree_builder.md
R126) it sorts by the pair (key, index) when ties in its input stand in index order. -/

namespace Sys2Proof.Machine

variable {α : Type}

theorem insertByKey_perm (key : α → Nat) (x : α) (l : List α) : (insertByKey key x l).Perm (x :: l) := by
  induction l with
  | nil => exact .refl _
  | cons y ys ih =>
    simp only [insertByKey]
    split
    · exact .refl _
    · exact (ih.cons y).trans (.swap x y ys)

theorem stableSortBy_perm (key : α → Nat) (l : List α) : (stableSortBy key l).Perm l := by
  induction l with
  | nil => exact .refl _
  | cons x xs ih => exact (insertByKey_perm key x _).trans (ih.cons x)

theorem mem_insertByKey {key : α → Nat} {x y : α} {l : List α} : y ∈ insertByKey key x l ↔ y = x ∨ y ∈ l := by
  rw [(insertByKey_perm key x l).mem_iff, List.mem_cons]

theorem mem_stableSortBy {key : α → Nat} {y : α} {l : List α} : y ∈ stableSortBy key l ↔ y ∈ l :=
  (stableSortBy_perm key l).mem_iff

theorem length_stableSortBy (key : α → Nat) (l : List α) : (stableSortBy key l).length = l.length :=
  (stableSortBy_perm key l).length_eq

/-- Inserting keeps any pairwise relation that the key order decides. -/
theorem insertByKey_pairwise {R : α → α → Prop} {key : α → Nat} {x : α} {l : List α}
    (hle : ∀ y ∈ l, key x ≤ key y → R x y) (hgt : ∀ y ∈ l, key y < key x → R y x)
    (hmono : l.Pairwise fun a b => key a ≤ key b) (h : l.Pairwise R) : (insertByKey key x l).Pairwise R := by
  induction l with
  | nil => simp [insertByKey]
  | cons y ys ih =>
    rw [List.pairwise_cons] at h hmono
    simp only [insertByKey]
    split
    next hxy =>
      refine List.pairwise_cons.2 ⟨?_, List.pairwise_cons.2 h⟩
      intro z hz
      rcases List.mem_cons.1 hz with rfl | hz
      · exact hle z List.mem_cons_self hxy
      · exact hle z (List.mem_cons_of_mem _ hz) (hxy.trans (hmono.1 z hz))
    next hxy =>
      refine List.pairwise_cons.2 ⟨?_, ih (fun z hz => hle z (List.mem_cons_of_mem _ hz))
        (fun z hz => hgt z (List.mem_cons_of_mem _ hz)) hmono.2 h.2⟩
      intro z hz
      rcases mem_insertByKey.1 hz with rfl | hz
      · exact hgt y List.mem_cons_self (by omega)
      · exact h.1 z hz

theorem insertByKey_sorted {key : α → Nat} {x : α} {l : List α} (h : l.Pairwise fun a b => key a ≤ key b) :
    (insertByKey key x l).Pairwise fun a b => key a ≤ key b :=
  insertByKey_pairwise (fun _ _ hk => hk) (fun _ _ hk => hk.le) h h

theorem stableSortBy_sorted (key : α → Nat) (l : List α) :
    (stableSortBy key l).Pairwise fun a b => key a ≤ key b := by
  induction l with
  | nil => exact .nil
  | cons x xs ih => exact insertByKey_sorted ih

/-- Elements that compare equal under the key keep the order of the input, as a sublist. -/
theorem insertByKey_filter (key : α → Nat) (k : Nat) (x : α) (l : List α) :
    (insertByKey key x l).filter (fun y => key y = k) = (x :: l).filter (fun y => key y = k) := by
  induction l with
  | nil => rfl
  | cons y ys ih =>
    simp only [insertByKey]
    split
    · rfl
    · simp only [List.filter_cons] at ih ⊢
      rw [ih]
      by_cases hx : key x = k <;> by_cases hy : key y = k <;> simp [hx, hy]
      omega

/-- R126: where ties in the input stand in index order, the result is in the order (key, index). -/
theorem stableSortBy_lex {key : Nat → Nat} {l : List Nat} (h : l.Pairwise fun a b => key a = key b → a < b) :
    (stableSortBy key l).Pairwise fun a b => key a < key b ∨ key a = key b ∧ a < b := by
  induction l with
  | nil => exact .nil
  | cons x xs ih =>
    rw [List.pairwise_cons] at h
    refine insertByKey_pairwise ?_ (fun _ _ hk => .inl hk) (stableSortBy_sorted key xs) (ih h.2)
    intro y hy hk
    rcases Nat.lt_or_eq_of_le hk with hk | hk
    · exact .inl hk
    · exact .inr ⟨hk, h.1 y (mem_stableSortBy.1 hy) hk⟩

theorem stableSortBy_congr {f g : α → Nat} {l : List α} (h : ∀ x ∈ l, f x = g x) :
    stableSortBy f l = stableSortBy g l := by
  induction l with
  | nil => rfl
  | cons x xs ih =>
    have hins : ∀ ys : List α, (∀ y ∈ ys, f y = g y) → insertByKey f x ys = insertByKey g x ys := by
      intro ys hys
      induction ys with
      | nil => rfl
      | cons y ys ihy =>
        simp only [insertByKey, h x List.mem_cons_self, hys y List.mem_cons_self,
          ihy fun z hz => hys z (List.mem_cons_of_mem _ hz)]
    have hxs := ih fun y hy => h y (List.mem_cons_of_mem _ hy)
    simp only [stableSortBy, hxs]
    exact hins _ fun y hy => h y (List.mem_cons_of_mem _ (mem_stableSortBy.1 hy))

end Sys2Proof.Machine
end

