-- ==== Sys2Proof/Laws/Tree.lean ====
section
/-! SUPPORT. What the merge loop keeps (41_tree_builder.md R125 to R127): `Grown` says how far a partly built tree is, one
merge keeps it, and the loop ends with one node in the working collection. -/

namespace Sys2Proof.Machine

/-- The child indices of a node. -/
def kids : Node → List Nat
  | .leaf _ _ => []
  | .internal _ l r => [l.toNat, r.toNat]

/-- All child indices in NODES. -/
def childIndices (nodes : List Node) : List Nat := nodes.flatMap kids

theorem childIndices_append (xs ys : List Node) : childIndices (xs ++ ys) = childIndices xs ++ childIndices ys := by
  simp [childIndices]

theorem childIndices_leafNodes (ft : List Entry) : childIndices (leafNodes ft) = [] := by
  simp [childIndices, leafNodes, kids]

@[simp] theorem leafNodes_length (ft : List Entry) : (leafNodes ft).length = ft.length := by simp [leafNodes]

theorem weightAt_append {nodes : List Node} {x : Nat} (more : List Node) (h : x < nodes.length) :
    weightAt (nodes ++ more) x = weightAt nodes x := by
  simp [weightAt, List.getElem?_append_left h]

theorem weightAt_new (nodes : List Node) (nd : Node) : weightAt (nodes ++ [nd]) nodes.length = nd.weight.toNat := by
  simp [weightAt]

theorem sum_weightAt_leafNodes (ft : List Entry) :
    ((List.range ft.length).map (weightAt (leafNodes ft))).sum = totalCount ft := by
  unfold totalCount
  congr 1
  apply List.ext_getElem (by simp)
  intro i h1 h2
  have hi : i < ft.length := by simpa using h2
  simp [weightAt, leafNodes, hi, Node.weight]

/-- A partly built tree: `nodes` so far, `w` the working collection. -/
structure Grown (ft : List Entry) (nodes : List Node) (w : List Nat) : Prop where
  /-- Each merge takes one node from the collection and adds one to the store. -/
  counts : nodes.length + w.length = 2 * ft.length
  /-- The leaves stand first, in load order (R122). -/
  leaves : ∀ i (h : i < ft.length), nodes[i]? = some (.leaf ft[i].sym ft[i].cnt)
  /-- Every later node is internal, its children stand before it, and its weight is their sum. -/
  internals : ∀ k, ft.length ≤ k → k < nodes.length → ∃ wt l r, nodes[k]? = some (.internal wt l r) ∧
    l.toNat < k ∧ r.toNat < k ∧ wt.toNat = weightAt nodes l.toNat + weightAt nodes r.toNat
  /-- Every node is in the collection or a child of one node, once. -/
  once : (w ++ childIndices nodes).Perm (List.range nodes.length)
  /-- The collection is in the order (weight, index) (R126). -/
  sorted : w.Pairwise fun a b => weightAt nodes a < weightAt nodes b ∨ weightAt nodes a = weightAt nodes b ∧ a < b
  /-- The weights in the collection sum to the total count. -/
  total : (w.map (weightAt nodes)).sum = totalCount ft

theorem Grown.mem_lt {ft : List Entry} {nodes : List Node} {w : List Nat} (g : Grown ft nodes w) {x : Nat} (h : x ∈ w) :
    x < nodes.length :=
  List.mem_range.1 (g.once.mem_iff.1 (List.mem_append_left _ h))

theorem grown_start (ft : List Entry) :
    Grown ft (leafNodes ft) (stableSortBy (weightAt (leafNodes ft)) (List.range ft.length)) where
  counts := by simp [length_stableSortBy]; omega
  leaves i h := by simp [leafNodes, h]
  internals k h1 h2 := by simp at h2; omega
  once := by simpa [childIndices_leafNodes] using stableSortBy_perm _ _
  sorted := stableSortBy_lex (by
    refine List.Pairwise.imp ?_ List.pairwise_lt_range
    intro a b h _
    exact h)
  total := by
    rw [← sum_weightAt_leafNodes]
    exact ((stableSortBy_perm _ _).map _).sum_nat

/-- The working collection after one merge. -/
def merged (nodes : List Node) (a b : Nat) (rest : List Nat) : List Nat :=
  stableSortBy (weightAt (nodes ++ [mergedNode nodes a b])) (rest ++ [nodes.length])

theorem mergedNode_weight {nodes : List Node} {a b : Nat} (h : weightAt nodes a + weightAt nodes b ≤ 2 ^ 32 - 1) :
    (mergedNode nodes a b).weight.toNat = weightAt nodes a + weightAt nodes b := by
  simp only [mergedNode, Node.weight, BitVec.toNat_ofNat]
  omega

theorem grown_merge {ft : List Entry} {nodes : List Node} {a b : Nat} {rest : List Nat}
    (hn : ft.length ≤ 32768) (ht : totalCount ft ≤ 2 ^ 32 - 1) (g : Grown ft nodes (a :: b :: rest)) :
    Grown ft (nodes ++ [mergedNode nodes a b]) (merged nodes a b rest) := by
  have ha : a < nodes.length := g.mem_lt (by simp)
  have hb : b < nodes.length := g.mem_lt (by simp)
  have hcount := g.counts
  simp only [List.length_cons] at hcount
  have hsum : weightAt nodes a + weightAt nodes b ≤ 2 ^ 32 - 1 := by
    have := g.total
    simp only [List.map_cons, List.sum_cons] at this
    omega
  have hw := mergedNode_weight hsum
  have hold : ∀ x, x < nodes.length → weightAt (nodes ++ [mergedNode nodes a b]) x = weightAt nodes x :=
    fun x hx => weightAt_append _ hx
  have hrest : ∀ x ∈ rest, x < nodes.length := fun x hx => g.mem_lt (by simp [hx])
  have hkids : kids (mergedNode nodes a b) = [a, b] := by
    simp only [mergedNode, kids, BitVec.toNat_ofNat]
    rw [Nat.mod_eq_of_lt (by omega), Nat.mod_eq_of_lt (by omega)]
  refine ⟨?_, ?_, ?_, ?_, ?_, ?_⟩
  · simp [merged, length_stableSortBy]; omega
  · intro i h
    have hi := g.leaves i h
    have hlt : i < nodes.length := by
      by_contra hge
      rw [List.getElem?_eq_none (by omega)] at hi
      cases hi
    rw [List.getElem?_append_left hlt, hi]
  · intro k h1 h2
    by_cases hk : k < nodes.length
    · obtain ⟨wt, l, r, h, hl, hr, hwt⟩ := g.internals k h1 hk
      exact ⟨wt, l, r, by rw [List.getElem?_append_left hk, h], hl, hr, by
        rw [hold _ (by omega), hold _ (by omega), hwt]⟩
    · have : k = nodes.length := by simp at h2; omega
      subst this
      refine ⟨_, _, _, by simp [mergedNode]; exact ⟨rfl, rfl, rfl⟩, ?_, ?_, ?_⟩
      · simp only [BitVec.toNat_ofNat]; omega
      · simp only [BitVec.toNat_ofNat]; omega
      · simp only [mergedNode, Node.weight] at hw
        simp only [BitVec.toNat_ofNat (x := a) , BitVec.toNat_ofNat (x := b)]
        rw [Nat.mod_eq_of_lt (show a < 2 ^ 16 by omega), Nat.mod_eq_of_lt (show b < 2 ^ 16 by omega), hold _ ha,
          hold _ hb]
        exact hw
  · rw [childIndices_append]
    have h1 : childIndices [mergedNode nodes a b] = [a, b] := by simp [childIndices, hkids]
    rw [h1, List.length_append, List.length_singleton, List.range_succ]
    have h2 : (merged nodes a b rest).Perm (rest ++ [nodes.length]) := stableSortBy_perm _ _
    refine (h2.append_right _).trans ?_
    have h3 := g.once.append_right [nodes.length]
    refine List.Perm.trans ?_ h3
    rw [List.perm_iff_count]
    intro z
    simp only [List.count_append, List.count_cons, List.cons_append, List.count_nil]
    omega
  · apply stableSortBy_lex
    have hs := g.sorted
    rw [List.pairwise_cons, List.pairwise_cons] at hs
    rw [List.pairwise_append]
    refine ⟨?_, by simp, ?_⟩
    · refine List.Pairwise.imp_of_mem ?_ hs.2.2
      intro x y hx hy h he
      rw [hold x (hrest x hx), hold y (hrest y hy)] at he
      omega
    · intro x hx y hy _
      have : y = nodes.length := by simpa using hy
      subst this
      exact hrest x hx
  · have h2 : (merged nodes a b rest).Perm (rest ++ [nodes.length]) := stableSortBy_perm _ _
    rw [(h2.map _).sum_nat, List.map_append, List.sum_append]
    have h3 : rest.map (weightAt (nodes ++ [mergedNode nodes a b])) = rest.map (weightAt nodes) :=
      List.map_congr_left fun x hx => hold x (hrest x hx)
    rw [h3]
    have := g.total
    simp only [List.map_cons, List.sum_cons] at this
    simp only [List.map_cons, List.map_nil, List.sum_cons, List.sum_nil, weightAt_new, hw]
    omega

/-- The loop ends with one node in the working collection. -/
theorem mergeLoop_grown {ft : List Entry} (hn : ft.length ≤ 32768) (ht : totalCount ft ≤ 2 ^ 32 - 1) :
    ∀ (fuel : Nat) (nodes : List Node) (w : List Nat), Grown ft nodes w → w ≠ [] → w.length ≤ fuel →
      ∃ x, Grown ft (mergeLoop fuel nodes w) [x]
  | fuel, nodes, [], _, h, _ => absurd rfl h
  | 0, _, _ :: _, _, _, h => by simp at h
  | fuel + 1, nodes, [x], g, _, _ => ⟨x, by simpa [mergeLoop] using g⟩
  | fuel + 1, nodes, a :: b :: rest, g, _, h => by
    have hlen : (merged nodes a b rest).length = rest.length + 1 := by simp [merged, length_stableSortBy]
    have hne : merged nodes a b rest ≠ [] := by
      intro h0
      rw [h0] at hlen
      simp at hlen
    exact mergeLoop_grown hn ht fuel _ (merged nodes a b rest) (grown_merge hn ht g) hne
      (by simp only [List.length_cons] at h; omega)

theorem buildTree_grown {ft : List Entry} (h0 : ft ≠ []) (hn : ft.length ≤ 32768) (ht : totalCount ft ≤ 2 ^ 32 - 1) :
    ∃ x, Grown ft (buildTree ft) [x] := by
  refine mergeLoop_grown hn ht _ _ _ (grown_start ft) ?_ (by simp [length_stableSortBy])
  intro h
  have := congrArg List.length h
  simp [length_stableSortBy] at this
  exact h0 this

end Sys2Proof.Machine
end

