-- ==== Sys2Proof/Laws/Path.lean ====
section
/-! SUPPORT. Paths in a finished tree (41_tree_builder.md R127, 42_code_generator.md R141): every node has one path from the
root, and a path ends where it can go no further. -/

namespace Sys2Proof.Machine

/-- What the rest of the proofs need of a finished tree with `n` leaves. -/
structure TreeShape (n : Nat) (nodes : List Node) : Prop where
  pos : 0 < n
  small : n ≤ 32768
  length_eq : nodes.length = 2 * n - 1
  leaf_of_lt : ∀ i, i < n → ∃ sym wt, nodes[i]? = some (.leaf sym wt)
  internal_of_ge : ∀ k, n ≤ k → k < nodes.length → ∃ wt l r, nodes[k]? = some (.internal wt l r) ∧
    l.toNat < k ∧ r.toNat < k ∧ wt.toNat = weightAt nodes l.toNat + weightAt nodes r.toNat
  once : ((2 * n - 2) :: childIndices nodes).Perm (List.range nodes.length)

theorem treeShape_of_grown {ft : List Entry} {nodes : List Node} {x : Nat} (h0 : ft ≠ []) (hn : ft.length ≤ 32768)
    (g : Grown ft nodes [x]) : x = 2 * ft.length - 2 ∧ TreeShape ft.length nodes := by
  have hpos : 0 < ft.length := List.length_pos_iff.2 h0
  have hlen : nodes.length = 2 * ft.length - 1 := by
    have := g.counts
    simp at this
    omega
  have hnot : 2 * ft.length - 2 ∉ childIndices nodes := by
    intro hm
    simp only [childIndices, List.mem_flatMap] at hm
    obtain ⟨nd, hnd, hk⟩ := hm
    obtain ⟨k, hk1, rfl⟩ := List.getElem_of_mem hnd
    by_cases hkn : k < ft.length
    · have := g.leaves k hkn
      rw [List.getElem?_eq_getElem hk1, Option.some.injEq] at this
      rw [this] at hk
      simp [kids] at hk
    · obtain ⟨wt, l, r, h, hl, hr, -⟩ := g.internals k (by omega) hk1
      rw [List.getElem?_eq_getElem hk1, Option.some.injEq] at h
      rw [h] at hk
      simp [kids] at hk
      omega
  have hx : x = 2 * ft.length - 2 := by
    have : 2 * ft.length - 2 ∈ [x] ++ childIndices nodes := g.once.mem_iff.2 (by simp; omega)
    rcases List.mem_append.1 this with h | h
    · exact (List.mem_singleton.1 h).symm
    · exact absurd h hnot
  subst hx
  exact ⟨rfl, hpos, hn, hlen, fun i hi => ⟨_, _, g.leaves i hi⟩, g.internals, g.once⟩

theorem buildTree_shape {ft : List Entry} (h0 : ft ≠ []) (hn : ft.length ≤ 32768) (ht : totalCount ft ≤ 2 ^ 32 - 1) :
    TreeShape ft.length (buildTree ft) := by
  obtain ⟨x, g⟩ := buildTree_grown h0 hn ht
  exact (treeShape_of_grown h0 hn g).2

section Shape
variable {n : Nat} {nodes : List Node}

theorem TreeShape.lt_of_getElem? {k : Nat} {nd : Node} (h : nodes[k]? = some nd) :
    k < nodes.length := (List.getElem?_eq_some_iff.1 h).1

theorem TreeShape.ge_of_internal (t : TreeShape n nodes) {k : Nat} {wt : Word} {l r : NodeIdx}
    (h : nodes[k]? = some (.internal wt l r)) : n ≤ k := by
  by_contra hk
  obtain ⟨sym, w, hl⟩ := t.leaf_of_lt k (by omega)
  rw [h] at hl
  cases hl

theorem TreeShape.children_lt (t : TreeShape n nodes) {k : Nat} {wt : Word} {l r : NodeIdx}
    (h : nodes[k]? = some (.internal wt l r)) : l.toNat < k ∧ r.toNat < k := by
  obtain ⟨wt', l', r', h', hl, hr, -⟩ := t.internal_of_ge k (t.ge_of_internal h) (lt_of_getElem? h)
  rw [h] at h'
  cases h'
  exact ⟨hl, hr⟩

theorem TreeShape.nodup (t : TreeShape n nodes) : ((2 * n - 2) :: childIndices nodes).Nodup :=
  t.once.nodup_iff.2 List.nodup_range

/-- In the list of all child indices, each internal node's pair stands at its own place; so two occurrences agree. -/
theorem childIndices_split {k : Nat} {nd : Node} (h : nodes[k]? = some nd) :
    childIndices nodes = childIndices (nodes.take k) ++ (kids nd ++ childIndices (nodes.drop (k + 1))) := by
  obtain ⟨hk, rfl⟩ := List.getElem?_eq_some_iff.1 h
  have hs : nodes = nodes.take k ++ (nodes[k] :: nodes.drop (k + 1)) := by
    rw [← List.drop_eq_getElem_cons hk, List.take_append_drop]
  calc childIndices nodes = childIndices (nodes.take k ++ (nodes[k] :: nodes.drop (k + 1))) := by rw [← hs]
    _ = _ := by simp only [childIndices, List.flatMap_append, List.flatMap_cons]

theorem mem_childIndices_of {k : Nat} {nd : Node} (h : nodes[k]? = some nd) {x : Nat} (hx : x ∈ kids nd) :
    x ∈ childIndices nodes := by
  rw [childIndices_split h]
  simp [hx]

/-- Two children are different nodes. -/
theorem TreeShape.children_ne (t : TreeShape n nodes) {k : Nat} {wt : Word} {l r : NodeIdx}
    (h : nodes[k]? = some (.internal wt l r)) : l.toNat ≠ r.toNat := by
  have hd := (List.nodup_cons.1 t.nodup).2
  rw [childIndices_split h] at hd
  have := (List.nodup_append.1 (List.nodup_append.1 hd).2.1).1
  simpa [kids] using this

/-- A node has one parent. -/
theorem TreeShape.parent_unique (t : TreeShape n nodes) {j k : Nat} {nj nk : Node} (hj : nodes[j]? = some nj)
    (hk : nodes[k]? = some nk) {x : Nat} (hxj : x ∈ kids nj) (hxk : x ∈ kids nk) : j = k := by
  have hd := (List.nodup_cons.1 t.nodup).2
  by_contra hne
  wlog hlt : j < k generalizing j k nj nk
  · exact this hk hj hxk hxj (Ne.symm hne) (by omega)
  rw [childIndices_split hk] at hd
  have hdisj := (List.nodup_append.1 hd).2.2
  have hmem : x ∈ childIndices (nodes.take k) :=
    mem_childIndices_of (k := j) (nd := nj) (by rw [List.getElem?_take, if_pos hlt, hj]) hxj
  exact hdisj x hmem x (by simp [hxk]) rfl

/-- The root is nobody's child. -/
theorem TreeShape.root_not_child (t : TreeShape n nodes) {k : Nat} {nd : Node} (hk : nodes[k]? = some nd) :
    2 * n - 2 ∉ kids nd := fun h => (List.nodup_cons.1 t.nodup).1 (mem_childIndices_of hk h)

/-- Every node but the root has a parent, which stands after it. -/
theorem TreeShape.exists_parent (t : TreeShape n nodes) {x : Nat} (hx : x < 2 * n - 2) :
    ∃ k wt l r, nodes[k]? = some (.internal wt l r) ∧ x < k ∧ (x = l.toNat ∨ x = r.toNat) := by
  have hm : x ∈ (2 * n - 2) :: childIndices nodes :=
    t.once.mem_iff.2 (by have := t.length_eq; simp; omega)
  rcases List.mem_cons.1 hm with h | h
  · omega
  · simp only [childIndices, List.mem_flatMap] at h
    obtain ⟨nd, hnd, hk⟩ := h
    obtain ⟨k, hk1, rfl⟩ := List.getElem_of_mem hnd
    have hget := List.getElem?_eq_getElem hk1
    cases hc : nodes[k] with
    | leaf s w => rw [hc] at hk; simp [kids] at hk
    | internal w l r =>
      rw [hc] at hk hget
      have hlt := t.children_lt hget
      simp only [kids, List.mem_cons, List.not_mem_nil, or_false] at hk
      exact ⟨k, w, l, r, hget, by omega, hk⟩

theorem Path.append {v x y : Nat} {c d : Code} (h1 : Path nodes v c x) (h2 : Path nodes x d y) :
    Path nodes v (c ++ d) y := by
  induction h1 with
  | here v => exact h2
  | left h _ ih => exact .left h (ih h2)
  | right h _ ih => exact .right h (ih h2)

/-- A path is cut at any place. -/
theorem Path.split {v y : Nat} {c d : Code} (h : Path nodes v (c ++ d) y) :
    ∃ x, Path nodes v c x ∧ Path nodes x d y := by
  induction c generalizing v with
  | nil => exact ⟨v, .here v, h⟩
  | cons b c ih =>
    cases h with
    | left hv hp =>
      obtain ⟨x, h1, h2⟩ := ih hp
      exact ⟨x, .left hv h1, h2⟩
    | right hv hp =>
      obtain ⟨x, h1, h2⟩ := ih hp
      exact ⟨x, .right hv h1, h2⟩

/-- A path is determined by its start and its directions. -/
theorem Path.target_unique {v x y : Nat} {c : Code} (h1 : Path nodes v c x) (h2 : Path nodes v c y) : x = y := by
  induction h1 with
  | here v => cases h2; rfl
  | left h _ ih =>
    cases h2 with
    | left h' hp => rw [h] at h'; cases h'; exact ih hp
  | right h _ ih =>
    cases h2 with
    | right h' hp => rw [h] at h'; cases h'; exact ih hp

/-- From a node that is not internal a path goes nowhere. -/
theorem Path.nil_of_not_internal {v x : Nat} {c : Code} (h : Path nodes v c x)
    (hv : ∀ wt l r, nodes[v]? ≠ some (.internal wt l r)) : c = [] ∧ x = v := by
  cases h with
  | here => exact ⟨rfl, rfl⟩
  | left h _ => exact absurd h (hv _ _ _)
  | right h _ => exact absurd h (hv _ _ _)

theorem Path.cons_inv {v x : Nat} {b : Bit} {c : Code} (h : Path nodes v (b :: c) x) :
    ∃ wt l r, nodes[v]? = some (.internal wt l r) ∧ Path nodes (if b then r else l).toNat c x := by
  cases h with
  | left h hp => exact ⟨_, _, _, h, hp⟩
  | right h hp => exact ⟨_, _, _, h, hp⟩

theorem Path.cons_of {v x : Nat} {b : Bit} {c : Code} {wt : Word} {l r : NodeIdx}
    (h : nodes[v]? = some (.internal wt l r)) (hp : Path nodes (if b then r else l).toNat c x) :
    Path nodes v (b :: c) x := by
  cases b
  · exact .left h hp
  · exact .right h hp

theorem Path.nil_inv {v x : Nat} (h : Path nodes v [] x) : v = x := by
  cases h
  rfl

/-- A path goes down: the index drops at each branch. -/
theorem TreeShape.path_descends (t : TreeShape n nodes) {v x : Nat} {c : Code} (h : Path nodes v c x) :
    x + c.length ≤ v := by
  induction h with
  | here v => simp
  | left h _ ih =>
    have := t.children_lt h
    simp only [List.length_cons]
    omega
  | right h _ ih =>
    have := t.children_lt h
    simp only [List.length_cons]
    omega

/-- R141: a path to every node. -/
theorem TreeShape.exists_path (t : TreeShape n nodes) : ∀ (d x : Nat), x + d = 2 * n - 2 → ∃ c, Path nodes (2 * n - 2) c x
  | d, x, hd => by
    by_cases hx : x = 2 * n - 2
    · exact ⟨[], hx ▸ .here _⟩
    · obtain ⟨k, wt, l, r, hk, hlt, hx'⟩ := t.exists_parent (x := x) (by omega)
      have hkl : k < 2 * n - 1 := t.length_eq ▸ lt_of_getElem? hk
      obtain ⟨c, hc⟩ := t.exists_path (2 * n - 2 - k) k (by omega)
      rcases hx' with rfl | rfl
      · exact ⟨c ++ [false], hc.append (.left hk (.here _))⟩
      · exact ⟨c ++ [true], hc.append (.right hk (.here _))⟩
termination_by d => d

/-- R141: "the unique path". -/
theorem TreeShape.path_unique (t : TreeShape n nodes) : ∀ {c d : Code} {x : Nat},
    Path nodes (2 * n - 2) c x → Path nodes (2 * n - 2) d x → c = d := by
  intro c
  induction c using List.reverseRecOn with
  | nil =>
    intro d x h1 h2
    cases h1
    have := t.path_descends h2
    exact (List.length_eq_zero_iff.1 (by omega)).symm
  | append_singleton c b ih =>
    intro d x h1 h2
    obtain ⟨y, hy, hyx⟩ := h1.split
    obtain ⟨wt, l, r, hv, hp⟩ := hyx.cons_inv
    obtain rfl := hp.nil_inv
    rcases List.eq_nil_or_concat d with rfl | ⟨d, b', rfl⟩
    · have h2 := h2.nil_inv
      have h3 := t.path_descends hy
      have h4 := t.children_lt hv
      cases b <;> simp only [if_true, if_false, Bool.false_eq_true] at h2 <;> omega
    · rw [List.concat_eq_append] at h2 ⊢
      obtain ⟨y', hy', hyx'⟩ := h2.split
      obtain ⟨wt', l', r', hv', hp'⟩ := hyx'.cons_inv
      have hx : (if b then r else l).toNat = (if b' then r' else l').toNat := hp'.nil_inv.symm
      have hyy : y = y' := t.parent_unique hv hv' (x := (if b then r else l).toNat)
        (by cases b <;> simp [kids]) (by rw [hx]; cases b' <;> simp [kids])
      subst hyy
      rw [hv] at hv'
      cases hv'
      have hb : b = b' := by
        have := t.children_ne hv
        cases b <;> cases b' <;> simp_all
      subst hb
      rw [ih hy hy']

/-- R129: a path from the root is shorter than the number of leaves. -/
theorem TreeShape.path_length_lt (t : TreeShape n nodes) {c : Code} {x : Nat} (h : Path nodes (2 * n - 2) c x) :
    c.length < n := by
  rcases List.eq_nil_or_concat c with rfl | ⟨d, b, rfl⟩
  · exact t.pos
  · rw [List.concat_eq_append] at h ⊢
    obtain ⟨y, hy, hyx⟩ := h.split
    obtain ⟨wt, l, r, hv, -⟩ := hyx.cons_inv
    have h1 := t.path_descends hy
    have h2 := t.ge_of_internal hv
    have h3 := t.pos
    simp only [List.length_append, List.length_singleton]
    omega

end Shape

end Sys2Proof.Machine
end

