-- ==== Sys2Proof/Laws/Codes.lean ====
section
/-! SUPPORT. What GENCODES writes (42_code_generator.md R141): the walk reaches exactly the leaves, each by its path. -/

namespace Sys2Proof.Machine

theorem allSome_eq_some {α : Type} {l : List (Option α)} {ys : List α} :
    allSome l = some ys ↔ l = ys.map some := by
  induction l generalizing ys with
  | nil => cases ys <;> simp [allSome]
  | cons x xs ih =>
    cases x with
    | none => cases ys <;> simp [allSome]
    | some x =>
      cases ys with
      | nil => simp [allSome]
      | cons y ys =>
        simp only [allSome, Option.map_eq_some_iff, List.cons.injEq, List.map_cons, Option.some.injEq]
        constructor
        · rintro ⟨zs, h, rfl, rfl⟩
          exact ⟨rfl, ih.1 h⟩
        · rintro ⟨rfl, h⟩
          exact ⟨ys, ih.2 h, rfl, rfl⟩

theorem allSome_of_forall {α : Type} {l : List (Option α)} (h : ∀ x ∈ l, ∃ y, x = some y) :
    ∃ ys, allSome l = some ys := by
  induction l with
  | nil => exact ⟨[], rfl⟩
  | cons x xs ih =>
    obtain ⟨y, rfl⟩ := h x List.mem_cons_self
    obtain ⟨ys, hys⟩ := ih fun z hz => h z (List.mem_cons_of_mem _ hz)
    exact ⟨y :: ys, by simp [allSome, hys]⟩

section Walk
variable {n : Nat} {nodes : List Node}

/-- The writes of a walk from `v`: one for each leaf below it, with the path that leads there. -/
theorem TreeShape.walk_spec (t : TreeShape n nodes) : ∀ (fuel v : Nat) (p : Code), v < nodes.length → v < fuel →
    ∃ ws, walk nodes fuel v p = some ws ∧
      ∀ i c, (i, c) ∈ ws ↔ ∃ d, c = p ++ d ∧ Path nodes v d i ∧ i < n
  | 0, v, p, _, h => by omega
  | fuel + 1, v, p, hv, hf => by
    by_cases hvn : v < n
    · obtain ⟨sym, wt, hl⟩ := t.leaf_of_lt v hvn
      refine ⟨[(v, p)], by simp [walk, hl], fun i c => ?_⟩
      simp only [List.mem_singleton, Prod.mk.injEq]
      constructor
      · rintro ⟨rfl, rfl⟩
        exact ⟨[], by simp, .here _, hvn⟩
      · rintro ⟨d, rfl, hp, -⟩
        obtain ⟨rfl, rfl⟩ := hp.nil_of_not_internal (by simp [hl])
        simp
    · obtain ⟨wt, l, r, hi, hl, hr, -⟩ := t.internal_of_ge v (by omega) hv
      obtain ⟨ls, hls, hlm⟩ := t.walk_spec fuel l.toNat (p ++ [false]) (by omega) (by omega)
      obtain ⟨rs, hrs, hrm⟩ := t.walk_spec fuel r.toNat (p ++ [true]) (by omega) (by omega)
      refine ⟨ls ++ rs, by simp [walk, hi, hls, hrs], fun i c => ?_⟩
      rw [List.mem_append, hlm, hrm]
      constructor
      · rintro (⟨d, rfl, hp, h⟩ | ⟨d, rfl, hp, h⟩)
        · exact ⟨false :: d, by simp, .left hi hp, h⟩
        · exact ⟨true :: d, by simp, .right hi hp, h⟩
      · rintro ⟨d, rfl, hp, h⟩
        cases hp with
        | here => omega
        | left h' hp => rw [hi] at h'; cases h'; exact .inl ⟨_, by simp, hp, h⟩
        | right h' hp => rw [hi] at h'; cases h'; exact .inr ⟨_, by simp, hp, h⟩

theorem lookup_reverse_mem {ws : List (Nat × Code)} {i : Nat} {c : Code} (h : writtenCode ws i = some c) :
    (i, c) ∈ ws := by
  unfold writtenCode at h
  rw [← List.mem_reverse]
  generalize ws.reverse = l at h ⊢
  induction l with
  | nil => simp at h
  | cons q l ih =>
    obtain ⟨j, d⟩ := q
    rw [List.lookup_cons] at h
    split at h
    next he =>
      cases h
      simp only [beq_iff_eq] at he
      subst he
      exact List.mem_cons_self
    next => exact List.mem_cons_of_mem _ (ih h)

theorem exists_writtenCode {ws : List (Nat × Code)} {i : Nat} {c : Code} (h : (i, c) ∈ ws) :
    ∃ d, writtenCode ws i = some d := by
  unfold writtenCode
  rw [← List.mem_reverse] at h
  generalize ws.reverse = l at h ⊢
  induction l with
  | nil => simp at h
  | cons q l ih =>
    obtain ⟨j, e⟩ := q
    rw [List.lookup_cons]
    split
    · exact ⟨_, rfl⟩
    next hne =>
      rcases List.mem_cons.1 h with h | h
      · cases h; simp at hne
      · exact ih h

/-- GENCODES finds every code, and CODES[i] leads from the root to leaf i. -/
theorem TreeShape.genCodes_spec (t : TreeShape n nodes) :
    ∃ codes, genCodes n nodes = some codes ∧ codes.length = n ∧
      ∀ i, i < n → ∃ c, codes[i]? = some c ∧ Path nodes (2 * n - 2) c i := by
  have hpos := t.pos
  have hlen := t.length_eq
  obtain ⟨ws, hws, hm⟩ := t.walk_spec nodes.length (2 * n - 2) [] (by omega) (by omega)
  have hall : ∀ i, i < n → ∃ c, writtenCode ws i = some c ∧ Path nodes (2 * n - 2) c i := by
    intro i hi
    obtain ⟨c, hc⟩ := t.exists_path (2 * n - 2 - i) i (by omega)
    obtain ⟨d, hd⟩ := exists_writtenCode ((hm i c).2 ⟨c, by simp, hc, hi⟩)
    obtain ⟨e, rfl, he, -⟩ := (hm i d).1 (lookup_reverse_mem hd)
    exact ⟨_, hd, by simpa using he⟩
  obtain ⟨codes, hcodes⟩ := allSome_of_forall (l := (List.range n).map (writtenCode ws)) (by
    intro x hx
    obtain ⟨i, hi, rfl⟩ := List.mem_map.1 hx
    obtain ⟨c, hc, -⟩ := hall i (List.mem_range.1 hi)
    exact ⟨c, hc⟩)
  have hmap := allSome_eq_some.1 hcodes
  refine ⟨codes, by simp [genCodes, hws, hcodes], ?_, fun i hi => ?_⟩
  · simpa using (congrArg List.length hmap).symm
  · obtain ⟨c, hc, hp⟩ := hall i hi
    refine ⟨c, ?_, hp⟩
    have := congrArg (fun l => l[i]?) hmap
    simp only [List.getElem?_map, List.getElem?_range hi, Option.map_some, hc] at this
    cases hci : codes[i]? with
    | none => simp [hci] at this
    | some d => simp [hci] at this; rw [this]

/-- The same, of a code table the core holds. -/
theorem TreeShape.codes_path (t : TreeShape n nodes) {codes : List Code} (h : genCodes n nodes = some codes) :
    codes.length = n ∧ ∀ i c, codes[i]? = some c → i < n ∧ Path nodes (2 * n - 2) c i := by
  obtain ⟨codes', h', hlen, hp⟩ := t.genCodes_spec
  rw [h] at h'
  cases h'
  refine ⟨hlen, fun i c hc => ?_⟩
  have hi : i < n := hlen ▸ (List.getElem?_eq_some_iff.1 hc).1
  obtain ⟨d, hd, hpd⟩ := hp i hi
  rw [hc] at hd
  cases hd
  exact ⟨hi, hpd⟩

end Walk

end Sys2Proof.Machine
end

