-- ==== Sys2Proof/Laws/Invariant.lean ====
section
/-! SUPPORT. What the invariant gives at once: numeric bounds, the finished tree's shape, the code table's length,
the nodes a decoder step needs; and that each shared operation keeps it. -/

namespace Sys2Proof.Machine

theorem Params.wf_bounds {p : Params} (h : p.wf = true) :
    1 ≤ p.nmax ∧ p.nmax ≤ 32768 ∧ 1 ≤ p.obitsCap ∧ p.nmax - 1 ≤ p.obitsCap ∧ p.obitsCap < 2 ^ 32 ∧
      1 ≤ p.osymsCap ∧ p.osymsCap < 2 ^ 32 := by
  simpa [Params.wf, and_assoc] using h

theorem Inv.small {s : State} (h : Inv s) : s.ft.length ≤ 32768 := by
  have := Params.wf_bounds h.cfgLegal
  have := h.tableFits
  omega

theorem Inv.ft_ne_nil {s : State} (h : Inv s) (hv : s.treeValid = true) : s.ft ≠ [] := by
  intro h0
  rw [State.treeValid_iff, h.emptyIff.2 h0] at hv
  simp at hv

theorem Inv.shape {s : State} (h : Inv s) (hv : s.treeValid = true) : TreeShape s.n s.nodes := by
  rw [h.nodesBuilt hv]
  exact buildTree_shape (h.ft_ne_nil hv) h.small (h.totalFits hv)

theorem Inv.grown {s : State} (h : Inv s) (hv : s.treeValid = true) : Grown s.ft s.nodes [s.rootIdx] := by
  obtain ⟨x, g⟩ := buildTree_grown (h.ft_ne_nil hv) h.small (h.totalFits hv)
  rw [← h.nodesBuilt hv] at g
  obtain ⟨rfl, -⟩ := treeShape_of_grown (h.ft_ne_nil hv) h.small g
  exact g

theorem Inv.codes_length {s : State} (h : Inv s) (hv : s.codesValid = true) : s.codes.length = s.n :=
  ((h.shape (State.treeValid_of_codesValid hv)).codes_path (h.codesDerived hv)).1

/-- The root index survives the 16 bits of DECPTR (R6, log 9). -/
theorem State.rootPtr_toNat {s : State} (h : s.ft.length ≤ 32768) : s.rootPtr.toNat = s.rootIdx := by
  simp only [State.rootPtr, State.rootIdx, State.n, BitVec.toNat_ofNat]
  omega

/-- While the tree is valid and has more than one leaf, DECPTR is at an internal node (R184). -/
theorem Inv.pointer {s : State} (h : Inv s) (hv : s.treeValid = true) (hn : s.n ≠ 1) :
    ∃ wt l r, s.nodes[s.decptr.toNat]? = some (.internal wt l r) := by
  rcases h.pointerInTree hv with hp | hp
  · have t := h.shape hv
    have hpos := t.pos
    have hlen := t.length_eq
    obtain ⟨wt, l, r, hk, -⟩ := t.internal_of_ge s.rootIdx (by simp only [State.rootIdx]; omega)
      (by simp only [State.rootIdx]; omega)
    exact ⟨wt, l, r, hp ▸ hk⟩
  · exact hp

/-- The children of an internal node exist (R36). -/
theorem Inv.children {s : State} (h : Inv s) (hv : s.treeValid = true) {k : Nat} {wt : Word} {l r : NodeIdx}
    (hk : s.nodes[k]? = some (.internal wt l r)) (b : Bit) : ∃ nd, s.nodes[(if b then r else l).toNat]? = some nd := by
  obtain ⟨h1, h2⟩ := (h.shape hv).children_lt hk
  have := TreeShape.lt_of_getElem? hk
  have hlt : (if b then r else l).toNat < s.nodes.length := by cases b <;> simp <;> omega
  exact ⟨_, List.getElem?_eq_getElem hlt⟩

/-- A decoder step finds its target (R181). -/
theorem Inv.target {s : State} (h : Inv s) (hv : s.treeValid = true) (hn : s.n ≠ 1) (b : Bit) :
    ∃ c nd, decTarget b s = some (c, nd) := by
  obtain ⟨wt, l, r, hp⟩ := h.pointer hv hn
  obtain ⟨nd, hnd⟩ := h.children hv hp b
  exact ⟨_, nd, decTarget_some.2 ⟨wt, l, r, hp, rfl, hnd⟩⟩

/-- Every entry has a code (R39). -/
theorem Inv.code_at {s : State} (h : Inv s) (hv : s.codesValid = true) {i : Nat} (hi : i < s.ft.length) :
    ∃ c, s.codes[i]? = some c :=
  ⟨_, List.getElem?_eq_getElem (by rw [h.codes_length hv]; exact hi)⟩

theorem Inv.errorEntry {s : State} (h : Inv s) {c : ECode} {w : Word} (hc : c ≠ .noError) :
    Inv (Sys2Proof.Machine.errorEntry c w s) :=
  { h with noErrorClear := fun he => (by cases he), errorCoded := fun _ => hc }

theorem Inv.errorReturn {s : State} (h : Inv s) : Inv (Sys2Proof.Machine.errorReturn s) :=
  { h with noErrorClear := fun _ => ⟨rfl, rfl, rfl⟩, errorCoded := fun he => by cases he }

theorem Inv.coreReset {s : State} (h : Inv s) : Inv (Sys2Proof.Machine.coreReset s) := by
  constructor <;> first
    | exact h.cfgLegal
    | simp [Sys2Proof.Machine.coreReset, State.treeValid, State.codesValid]

/-- ARG, IDX, the FIFOs within their capacities and the host's side are free. -/
theorem Inv.host {s : State} (h : Inv s) {a i : Word} {ob : List Bit} {os : List Sym} {p : List BusOp} {pc : Nat}
    {rd : List Word} (h1 : ob.length ≤ s.cfg.obitsCap) (h2 : os.length ≤ s.cfg.osymsCap) :
    Inv { s with arg := a, idx := i, obits := ob, osyms := os, pending := p, pc := pc, reads := rd } :=
  { h with bitsFit := h1, symsFit := h2 }

/-- DECPTR may move to the root or to an internal node of a valid tree. -/
theorem Inv.moved {s : State} (h : Inv s) (hv : s.treeValid = true) {d : NodeIdx}
    (hd : d.toNat = s.rootIdx ∨ ∃ w l r, s.nodes[d.toNat]? = some (.internal w l r)) : Inv { s with decptr := d } :=
  { h with
    pointerInTree := fun _ => hd
    pointerIdle := fun h' => by rw [show s.treeValid = false from h'] at hv; cases hv }

end Sys2Proof.Machine
end

