-- ==== Sys2Proof/Laws/PerInstr.lean ====
section
/-! SUPPORT. The family OpcodeRow, per command: the encoded word matches the command's own row of the opcode map of
30_encoding.md R88, and that row stands in the map. -/

namespace Sys2Proof.Laws.OpcodeRow

/-- The row of R88 with the command's mnemonic is in the map, and the command's word matches it. -/
def Statement (i : Instr) : Prop :=
  ∃ r ∈ opcodeMap, r.mnemonic = i.mnemonic ∧ encode i &&& r.mask = r.matchBits

/-- The match of a row whose operand field is the low `lo` bits, as a number. -/
theorem match_of_low {w mask matchBits : Word} (lo : Nat) (hlo : lo ≤ 32)
    (hmask : mask.toNat = (2 ^ (32 - lo) - 1) * 2 ^ lo) (h : w.toNat / 2 ^ lo * 2 ^ lo = matchBits.toNat) :
    w &&& mask = matchBits := by
  apply BitVec.eq_of_toNat_eq
  rw [BitVec.toNat_and, hmask, ← h]
  apply Nat.eq_of_testBit_eq
  intro i
  rw [Nat.testBit_and, ← Nat.shiftLeft_eq, ← Nat.shiftLeft_eq, Nat.testBit_shiftLeft, Nat.testBit_shiftLeft,
    Nat.testBit_two_pow_sub_one, ← Nat.shiftRight_eq_div_pow, Nat.testBit_shiftRight]
  by_cases hi : lo ≤ i
  · have : lo + (i - lo) = i := by omega
    simp only [hi, this, decide_true, Bool.true_and]
    by_cases h32 : i < 32
    · simp [show i - lo < 32 - lo by omega]
    · have : w.toNat.testBit i = false :=
        Nat.testBit_lt_two_pow (lt_of_lt_of_le w.isLt (Nat.pow_le_pow_right (by omega) (by omega)))
      simp [this]
  · simp [hi]

theorem nop : Statement .nop := ⟨⟨"NOP", 0x00000000#32, 0xFFFFFFFF#32⟩, by decide, by decide, by decide⟩

theorem sreset : Statement .sreset := ⟨⟨"SRESET", 0x01000000#32, 0xFFFFFFFF#32⟩, by decide, by decide, by decide⟩

theorem clrerr : Statement .clrerr := ⟨⟨"CLRERR", 0x02000000#32, 0xFFFFFFFF#32⟩, by decide, by decide, by decide⟩

theorem ftClear : Statement .ftClear :=
  ⟨⟨"FT_CLEAR", 0x03000000#32, 0xFFFFFFFF#32⟩, by decide, by decide, by decide⟩

theorem ftAppend (sym : Sym) : Statement (.ftAppend sym) := by
  refine ⟨⟨"FT_APPEND", 0x04000000#32, 0xFFFF0000#32⟩, by decide, rfl, match_of_low 16 (by omega) rfl ?_⟩
  have := sym.isLt
  simp only [encode, wordS_toNat, BitVec.toNat_ofNat]
  omega

theorem build : Statement .build := ⟨⟨"BUILD", 0x05000000#32, 0xFFFFFFFF#32⟩, by decide, by decide, by decide⟩

theorem gencodes : Statement .gencodes :=
  ⟨⟨"GENCODES", 0x06000000#32, 0xFFFFFFFF#32⟩, by decide, by decide, by decide⟩

theorem encSym (sym : Sym) : Statement (.encSym sym) := by
  refine ⟨⟨"ENC_SYM", 0x07000000#32, 0xFFFF0000#32⟩, by decide, rfl, match_of_low 16 (by omega) rfl ?_⟩
  have := sym.isLt
  simp only [encode, wordS_toNat, BitVec.toNat_ofNat]
  omega

theorem decBit (bv : BitVec 8) : Statement (.decBit bv) := by
  refine ⟨⟨"DEC_BIT", 0x08000000#32, 0xFFFFFF00#32⟩, by decide, rfl, match_of_low 8 (by omega) rfl ?_⟩
  have := bv.isLt
  simp only [encode, wordB_toNat, BitVec.toNat_ofNat]
  omega

theorem decEnd : Statement .decEnd := ⟨⟨"DEC_END", 0x09000000#32, 0xFFFFFFFF#32⟩, by decide, by decide, by decide⟩

theorem decRst : Statement .decRst := ⟨⟨"DEC_RST", 0x0A000000#32, 0xFFFFFFFF#32⟩, by decide, by decide, by decide⟩

theorem fifoClr (sel : BitVec 2) : Statement (.fifoClr sel) := by
  refine ⟨⟨"FIFO_CLR", 0x0B000000#32, 0xFFFFFFFC#32⟩, by decide, rfl, match_of_low 2 (by omega) rfl ?_⟩
  have := sel.isLt
  simp only [encode, wordM_toNat, BitVec.toNat_ofNat]
  omega

end Sys2Proof.Laws.OpcodeRow
end

