-- ==== Sys2Proof/Laws/Run.lean ====
section
/-! SUPPORT. Runs: appending runs of commands and of host operations, and which commands can clear a recorded error. -/

namespace Sys2Proof.Machine

theorem execAll_append (a b : List Instr) (s : State) : execAll (a ++ b) s =
    (match execAll a s with
      | .next t => execAll b t
      | .fault f => .fault f
      | .refused r => .refused r) := by
  induction a generalizing s with
  | nil => rfl
  | cons i a ih =>
    simp only [List.cons_append, execAll]
    cases exec i s <;> simp [ih]

theorem runOps_append (a b : List BusOp) (s : State) : runOps (a ++ b) s =
    (match runOps a s with
      | .next t => runOps b t
      | .fault f => .fault f
      | .refused r => .refused r) := by
  induction a generalizing s with
  | nil => rfl
  | cons op a ih =>
    simp only [List.cons_append, runOps]
    cases runBusOp op s <;> simp [ih]

/-- An effect raises no error. -/
theorem Effect.err_false {i : Instr} {s t : State} (he : s.err = false) (h : Effect i s t) : t.err = false := by
  cases i <;> simp only [Effect] at h
  case decBit =>
    obtain ⟨-, -, b, c, nd, -, -, h⟩ := h
    rcases h with ⟨_, _, -, -, rfl⟩ | ⟨_, _, _, -, rfl⟩ <;> simp [he]
  case encSym =>
    obtain ⟨-, _, _, -, -, -, rfl⟩ := h
    simp [he]
  case ftAppend =>
    obtain ⟨-, -, -, -, rfl⟩ := h
    simp [he]
  case build =>
    obtain ⟨-, -, rfl⟩ := h
    simp [he]
  case gencodes =>
    obtain ⟨-, _, -, rfl⟩ := h
    simp [he]
  case decEnd =>
    obtain ⟨-, -, rfl⟩ := h
    simp [he]
  case decRst =>
    obtain ⟨-, rfl⟩ := h
    simp [he]
  all_goals
    subst h
    simp [he]

/-- Only SRESET and CLRERR clear a recorded error (R230). -/
theorem exec_keeps_err {i : Instr} {s t : State} (h1 : i ≠ .sreset) (h2 : i ≠ .clrerr) (he : s.err = true)
    (h : exec i s = .next t) : t.err = true := by
  rcases exec_next h with ⟨c, -, rfl⟩ | h
  · rfl
  · cases i <;> simp only [Effect] at h
    case sreset => exact absurd rfl h1
    case clrerr => exact absurd rfl h2
    case decBit =>
      obtain ⟨-, -, b, c, nd, -, -, h⟩ := h
      rcases h with ⟨_, _, -, -, rfl⟩ | ⟨_, _, _, -, rfl⟩ <;> simp [he]
    case encSym =>
      obtain ⟨-, _, _, -, -, -, rfl⟩ := h
      simp [he]
    case ftAppend =>
      obtain ⟨-, -, -, -, rfl⟩ := h
      simp [he]
    case build =>
      obtain ⟨-, -, rfl⟩ := h
      simp [he]
    case gencodes =>
      obtain ⟨-, _, -, rfl⟩ := h
      simp [he]
    case decEnd =>
      obtain ⟨-, -, rfl⟩ := h
      simp [he]
    case decRst =>
      obtain ⟨-, rfl⟩ := h
      simp [he]
    all_goals
      subst h
      simp [he]

end Sys2Proof.Machine
end

