-- ==== Sys2Proof/Tests/Slice0.lean ====
section
/-! SUPPORT. Tests. Expected results are the vectors of spec/95_test_vectors.md (named in each comment) or words written out
from the spec's encodings; and one witness theorem for each obligation that has hypotheses. -/

namespace Sys2Proof.Tests
open Sys2Proof Sys2Proof.Machine

/-! ### The smoke test of WellFormed: each check refuses an ill-formed term -/

theorem test_params_default : Params.default.wf = true := by decide
theorem test_params_nmax_low : Params.wf { nmax := 0, obitsCap := 1, osymsCap := 1 } = false := by decide
theorem test_params_nmax_high : Params.wf { nmax := 32769, obitsCap := 40000, osymsCap := 1 } = false := by decide
theorem test_params_nmax_max : Params.wf { nmax := 32768, obitsCap := 32767, osymsCap := 1 } = true := by decide
theorem test_params_obits_low : Params.wf { nmax := 1, obitsCap := 0, osymsCap := 1 } = false := by decide
theorem test_params_obits_code : Params.wf { nmax := 6, obitsCap := 4, osymsCap := 1 } = false := by decide
theorem test_params_obits_high : Params.wf { nmax := 1, obitsCap := 2 ^ 32, osymsCap := 1 } = false := by decide
theorem test_params_osyms_low : Params.wf { nmax := 1, obitsCap := 1, osymsCap := 0 } = false := by decide
theorem test_params_osyms_high : Params.wf { nmax := 1, obitsCap := 1, osymsCap := 2 ^ 32 } = false := by decide
theorem test_line_wr : AsmLine.wf (.wr .arg (2 ^ 32)) = false ∧ AsmLine.wf (.wr .arg (2 ^ 32 - 1)) = true := by decide
theorem test_line_ftAppend : AsmLine.wf (.ftAppend 65536) = false ∧ AsmLine.wf (.ftAppend 65535) = true := by decide
theorem test_line_encSym : AsmLine.wf (.encSym 65536) = false ∧ AsmLine.wf (.encSym 65535) = true := by decide
theorem test_line_decBit : AsmLine.wf (.decBit 256) = false ∧ AsmLine.wf (.decBit 255) = true := by decide
theorem test_line_fifoClr : AsmLine.wf (.fifoClr 4) = false ∧ AsmLine.wf (.fifoClr 3) = true := by decide
theorem test_pseudo_decode : PseudoLine.wf (.decode [0, 2]) = false ∧ PseudoLine.wf (.decode [0, 1]) = true := by decide

/-! ### Decoding, from words written out in the bit order of R83 to R86 -/

theorem test_decode_nop : decode 0b00000000_000000000000000000000000#32 = .cmd .nop := by decide
theorem test_decode_sreset : decode 0b00000001_000000000000000000000000#32 = .cmd .sreset := by decide
theorem test_decode_clrerr : decode 0b00000010_000000000000000000000000#32 = .cmd .clrerr := by decide
theorem test_decode_ftClear : decode 0b00000011_000000000000000000000000#32 = .cmd .ftClear := by decide
theorem test_decode_ftAppend : decode 0b00000100_00000000_1000000000000001#32 = .cmd (.ftAppend 0x8001#16) := by decide
theorem test_decode_build : decode 0b00000101_000000000000000000000000#32 = .cmd .build := by decide
theorem test_decode_gencodes : decode 0b00000110_000000000000000000000000#32 = .cmd .gencodes := by decide
theorem test_decode_encSym : decode 0b00000111_00000000_0100000000000010#32 = .cmd (.encSym 0x4002#16) := by decide
theorem test_decode_decBit : decode 0b00001000_0000000000000000_10000001#32 = .cmd (.decBit 0x81#8) := by decide
theorem test_decode_decEnd : decode 0b00001001_000000000000000000000000#32 = .cmd .decEnd := by decide
theorem test_decode_decRst : decode 0b00001010_000000000000000000000000#32 = .cmd .decRst := by decide
theorem test_decode_fifoClr : decode 0b00001011_0000000000000000000000_10#32 = .cmd (.fifoClr 2#2) := by decide

/-- R89's own examples of illegal words, and TC-13. -/
theorem test_decode_illegal :
    decode 0x00000001#32 = .illegal .reservedBits ∧ decode 0x05000100#32 = .illegal .reservedBits ∧
    decode 0x04010000#32 = .illegal .reservedBits ∧ decode 0x08000100#32 = .illegal .reservedBits ∧
    decode 0x0B000004#32 = .illegal .reservedBits ∧ decode 0x0C000000#32 = .illegal .unassignedOp ∧
    decode 0xFFFFFFFF#32 = .illegal .unassignedOp := by decide

theorem test_decodeTableWord : decodeTableWord 32 0x07000002 = some (.encSym 2#16) ∧ decodeTableWord 32 0x0C000000 = none := by
  decide

/-! ### The assembler's pseudo-instructions (R92) -/

theorem test_expand :
    expand (.append 7 5) = some [.wr .arg 5, .ftAppend 7] ∧ expand (.encode [1, 2]) = some [.encSym 1, .encSym 2] ∧
    expand (.decode [1, 0]) = some [.decBit 1, .decBit 0, .decEnd] ∧
    expand (.drainBits 2) = some [.rd .obitsPop none, .rd .obitsPop none] ∧
    expand (.drainSyms 1) = some [.rd .osymsPop none] ∧
    expand (.peekEntry 3) = some [.wr .idx 3, .rd .ftSym none, .rd .ftCnt none] ∧
    expand (.peekNode 3) = some [.wr .idx 3, .rd .nodeW none, .rd .nodeInfo none, .rd .nodeChild none] ∧
    expand (.peekCode 1 2) = some [.wr .idx 0x00020001, .rd .codeLen none, .rd .codeBit none] ∧
    expand .check = some [.rd .status none] := by decide

/-! ### The named states of 95_test_vectors.md section 0 -/

/-- Scenario A's table. -/
def ftA : List Entry := [⟨1#16, 2#32⟩, ⟨2#16, 1#32⟩, ⟨3#16, 1#32⟩, ⟨4#16, 1#32⟩, ⟨5#16, 1#32⟩]

/-- TB-1's nodes, as the spec lists them. -/
def nodesA : List Node :=
  [.leaf 1#16 2#32, .leaf 2#16 1#32, .leaf 3#16 1#32, .leaf 4#16 1#32, .leaf 5#16 1#32, .internal 2#32 1#16 2#16,
   .internal 2#32 3#16 4#16, .internal 4#32 0#16 5#16, .internal 6#32 6#16 7#16]

/-- TB-1's codes: 10, 110, 111, 00, 01. -/
def codesA : List Code := [[true, false], [true, true, false], [true, true, true], [false, false], [false, true]]

/-- A-LOAD. -/
def loadA : State := { State.reset with arg := 1#32, ft := ftA, phase := .loading }

/-- A-BUILT. -/
def builtA : State := { loadA with nodes := nodesA, phase := .built, decptr := 8#16 }

/-- A-CODED. -/
def codedA : State := { builtA with codes := codesA, phase := .coded }

/-- TB-9 built: one entry. -/
def builtOne : State :=
  { State.reset with arg := 4#32, ft := [⟨0x61#16, 4#32⟩], nodes := [.leaf 0x61#16 4#32], phase := .built }

/-- TB-9 coded. -/
def codedOne : State := { builtOne with codes := [[]], phase := .coded }

/-- A state with a recorded error, as TC-8 after its first write. -/
def failedA : State := { loadA with err := true, ecode := .illegalCommand, errcmd := 0x0C000000#32, errarg := 1#32 }

/-- The host's next operation is `op`. -/
def before (op : BusOp) (s : State) : State := { s with pending := [op] }

/-- The value of a register after a result. -/
def seen (r : Reg) (x : Result) : Option Word := (nextState? x).map (regValue r)

/-- The host's observation after a result. -/
def readsOf (x : Result) : Option (List Word) := (nextState? x).map State.reads

/-! ### The invariant holds of them -/

theorem inv_reset : Inv State.reset := by
  constructor <;> decide

theorem inv_loadA : Inv loadA := by
  constructor <;> decide

theorem inv_builtA : Inv builtA := by
  constructor <;> decide

theorem inv_codedA : Inv codedA := by
  constructor <;> decide

theorem inv_builtOne : Inv builtOne := by
  constructor <;> decide

theorem inv_codedOne : Inv codedOne := by
  constructor <;> decide

theorem inv_failedA : Inv failedA := by
  constructor <;> decide

/-! ### One step of each command -/

/-- TC-6. -/
theorem test_nop : nextState? (exec .nop loadA) = some loadA := by decide

/-- TC-10. -/
theorem test_sreset : seen .status (execWord 0x01000000#32 failedA) = some 0#32 ∧
    seen .nent (execWord 0x01000000#32 failedA) = some 0#32 := by decide

/-- TC-11. -/
theorem test_clrerr : nextState? (execWord 0x02000000#32 failedA) = some loadA := by decide

/-- TL-7. -/
theorem test_ftClear : seen .status (exec .ftClear builtA) = some 0#32 ∧ seen .root (exec .ftClear builtA) = some 0#32 ∧
    (nextState? (exec .ftClear builtA)).map State.decptr = some 0#16 := by decide

/-- TL-1. -/
theorem test_ftAppend : (nextState? (exec (.ftAppend 1#16) { State.reset with arg := 2#32 })).map State.ft =
    some [⟨1#16, 2#32⟩] := by decide

/-- TL-6: the phase is checked before the count. -/
theorem test_ftAppend_phase_first : seen .status (exec (.ftAppend 9#16) { builtA with arg := 0#32 }) = some 0x12A#32 := by
  decide

/-- TB-1. -/
theorem test_build : nextState? (exec .build loadA) = some builtA := by decide

/-- TB-12: the new node 6 settles after the entries D and E of equal weight. -/
theorem test_build_ties :
    buildTree [⟨0x41#16, 1#32⟩, ⟨0x42#16, 1#32⟩, ⟨0x43#16, 1#32⟩, ⟨0x44#16, 3#32⟩, ⟨0x45#16, 3#32⟩] =
      [.leaf 0x41#16 1#32, .leaf 0x42#16 1#32, .leaf 0x43#16 1#32, .leaf 0x44#16 3#32, .leaf 0x45#16 3#32,
       .internal 2#32 0#16 1#16, .internal 3#32 2#16 5#16, .internal 6#32 3#16 4#16, .internal 9#32 6#16 7#16] := by decide

/-- TG-1 (TB-1's codes). -/
theorem test_gencodes : nextState? (exec .gencodes builtA) = some codedA := by decide

/-- TG-4: the decoder's pointer is not moved. -/
theorem test_gencodes_pointer : seen .status (exec .gencodes { builtA with decptr := 7#16 }) = some 3#32 := by decide

/-- TE-1. -/
theorem test_encSym : (nextState? (exec (.encSym 2#16) codedA)).map State.obits = some [true, true, false] ∧
    seen .status (exec (.encSym 2#16) codedA) = some 0x303#32 := by decide

/-- TE-4, second command: 3 bits do not fit where 2 are free. -/
theorem test_encSym_full :
    seen .status (exec (.encSym 2#16)
      { codedA with cfg := { nmax := 5, obitsCap := 4, osymsCap := 1 }, obits := [true, false] }) = some 0x39B#32 := by
  decide

/-- The path of section 2.5, row 5: from node 5 the bit 0 emits symbol 2. -/
theorem test_decBit : nextState? (exec (.decBit 0#8) { builtA with decptr := 5#16, osyms := [1#16] }) =
    some { builtA with decptr := 8#16, osyms := [1#16, 2#16] } := by decide

/-- TD-4, fourth command, and TD-5, third command: only the bit that completes a code needs room. -/
theorem test_decBit_full :
    seen .status (exec (.decBit 1#8) { builtA with
      cfg := { nmax := 256, obitsCap := 4096, osymsCap := 1 }, decptr := 6#16, osyms := [4#16] }) = some 0x49A#32 ∧
    seen .status (exec (.decBit 1#8) { builtA with
      cfg := { nmax := 256, obitsCap := 4096, osymsCap := 1 }, osyms := [4#16] }) = some 0x402#32 := by decide

/-- TD-10 and TD-6. -/
theorem test_decEnd : seen .status (exec .decEnd { builtA with decptr := 6#16 }) = some 0x07A#32 ∧
    seen .status (exec .decEnd builtA) = some 0x102#32 := by decide

/-- TD-12. -/
theorem test_decRst : nextState? (exec .decRst { codedA with decptr := 7#16, osyms := [3#16] }) =
    some { codedA with osyms := [3#16] } := by decide

/-- TC-1 and TC-2. -/
theorem test_fifoClr :
    seen .status (exec (.fifoClr 1#2) { codedA with decptr := 6#16, obits := [true, true, false] }) = some 0x003#32 ∧
    seen .status (exec (.fifoClr 2#2) { codedA with obits := [true, true, false], osyms := [4#16] }) = some 0x303#32 := by
  decide

/-! ### The host's bus -/

/-- TH-3: 0x016 is ARG. -/
theorem test_write_arg : (nextState? (step (before (.write 0x016#12 0x1234#32) State.reset))).map State.arg =
    some 0x1234#32 := by decide

/-- TH-7, the pop. -/
theorem test_pop : readsOf (step (before (.read 0x038#12) { codedA with obits := [true, false] })) = some [0x80000001#32] := by
  decide

/-- TH-8: the windows on node 8. -/
theorem test_node_window :
    regValue .nodeW { builtA with idx := 8#32 } = 6#32 ∧ regValue .nodeInfo { builtA with idx := 8#32 } = 0xC0000000#32 ∧
    regValue .nodeChild { builtA with idx := 8#32 } = 0x00070006#32 ∧
    regValue .nodeInfo { builtA with idx := 0#32 } = 0x80000001#32 ∧
    regValue .nodeInfo { builtA with idx := 9#32 } = 0#32 := by decide

/-- TG-6 and TL-11: the windows on code 1 and entry 2. -/
theorem test_code_window :
    regValue .codeBit { codedA with idx := 0x00020001#32 } = 0x80000000#32 ∧
    regValue .codeBit { codedA with idx := 0x00030001#32 } = 0#32 ∧
    regValue .codeLen { codedA with idx := 5#32 } = 0#32 ∧
    regValue .ftSym { loadA with idx := 0x00070002#32 } = 3#32 := by decide

/-- withFetchWord: the very next step runs the word (TL-2: code 4 with ERRCMD the word). -/
theorem test_withFetchWord : seen .errcmd (step (State.reset.withFetchWord 32 0x04000001)) = some 0x04000001#32 := by decide

/-! ### Witnesses: for each obligation with hypotheses, a concrete instance of them, clause by clause -/

theorem witness_EncodeOfDecodedWord : decode 0x0700FFFF#32 = .cmd (.encSym 0xFFFF#16) := by decide

theorem witness_DecoderFollowsOpcodeMap :
    decode 0x0400FFFF#32 = .cmd (.ftAppend 0xFFFF#16) ∧ decode 0x07000000#32 = .cmd (.encSym 0#16) ∧
    decode 0x080000FF#32 = .cmd (.decBit 0xFF#8) ∧ decode 0x0B000003#32 = .cmd (.fifoClr 3#2) := by decide

/-- A word of each illegal kind, at the edge of its range; a state of each ERR. -/
theorem witness_IllegalWordsRaiseOrAreDiscarded :
    12 ≤ (0x0C000000#32 : Word).toNat / 2 ^ 24 ∧ (0x0A000001#32 : Word).toNat % 2 ^ 24 ≠ 0 ∧
    (0x04010000#32 : Word).toNat / 2 ^ 16 % 2 ^ 8 ≠ 0 ∧ (0x08000100#32 : Word).toNat / 2 ^ 8 % 2 ^ 16 ≠ 0 ∧
    (0x0B000004#32 : Word).toNat / 2 ^ 2 % 2 ^ 22 ≠ 0 ∧ loadA.err = false ∧ failedA.err = true := by decide

theorem witness_AssemblerWordsAndRanges :
    assemble (.ftAppend 65535) = some (.write 0x010#12 0x0400FFFF#32) ∧ assemble (.decBit 255) = some (.write 0x010#12 0x080000FF#32) ∧
    assemble (.fifoClr 3) = some (.write 0x010#12 0x0B000003#32) ∧ assemble (.encSym 65536) = none ∧
    assemble (.decBit 256) = none ∧ assemble (.fifoClr 4) = none := by decide

theorem witness_StepRunsDecodedCommand :
    (before (.write 0x010#12 0x07000002#32) codedA).pending = [.write 0x010#12 0x07000002#32] ∧
    regAt 0x010#12 = some .cmd ∧ codedA.err = false ∧ decode 0x07000002#32 = .cmd (.encSym 2#16) := by decide

theorem witness_StickyErrorDiscardsCommands :
    regAt 0x013#12 = some .cmd ∧ failedA.err = true ∧ (0x01000001#32 : Word) ≠ 0x01000000#32 ∧
    (0x01000001#32 : Word) ≠ 0x02000000#32 := by decide

theorem witness_EveryHostOperationAdvancesPcByOne :
    nextState? (step (before (.read 0x000#12) loadA)) = some { loadA with pc := 1, reads := [0x48554646#32] } ∧
    nextState? (step loadA) = some loadA := by decide

theorem witness_HostWriteEffects :
    (0x010#12 : Offset).toNat / 4 * 4 = 0x010 ∧ (0x017#12 : Offset).toNat / 4 * 4 = 0x014 ∧
    (0x044#12 : Offset).toNat / 4 * 4 = 0x044 ∧ (0xFFF#12 : Offset).toNat / 4 * 4 ≠ 0x010 := by decide

/-- A read, a reserved offset; and a state within the invariant whose table is not empty. -/
theorem witness_ReadsAreFreeOfSideEffects :
    (before (.read 0x018#12) loadA).pending = [.read 0x018#12] ∧ regAt 0x018#12 = some .status ∧ regAt 0x064#12 = none ∧
    regAt 0x063#12 = some .codeBit ∧ Inv loadA ∧ loadA.ft.length = 5 :=
  ⟨rfl, by decide, by decide, by decide, inv_loadA, rfl⟩

/-- The first and the last offset of each pop; a FIFO that is not empty and one that is. -/
theorem witness_PopsRemoveTheFront :
    (before (.read 0x03B#12) { codedA with obits := [true] }).obits = true :: [] ∧ codedA.obits = [] ∧
    (before (.read 0x043#12) { codedA with osyms := [3#16] }).osyms = 3#16 :: [] ∧ codedA.osyms = [] ∧
    regAt 0x038#12 = some .obitsPop ∧ regAt 0x03B#12 = some .obitsPop ∧ regAt 0x040#12 = some .osymsPop ∧
    regAt 0x043#12 = some .osymsPop := by decide

theorem witness_RegisterMapAndIgnoredAddressBits :
    (0x014#12 : Offset).toNat / 4 = (0x017#12 : Offset).toNat / 4 ∧ regAt 0x064#12 = none ∧ regAt 0x063#12 ≠ none := by decide

theorem witness_ConstantRegistersNeverChange : loadA.cfg.wf = true ∧ nextState? (step loadA) = some loadA := by decide

theorem witness_RootRegisters : Inv builtA ∧ builtA.phase = .built ∧ Inv codedOne ∧ codedOne.phase = .coded ∧ codedOne.n = 1 ∧
    Inv loadA ∧ loadA.phase = .loading ∧ Inv State.reset ∧ State.reset.phase = .empty :=
  ⟨inv_builtA, rfl, inv_codedOne, rfl, rfl, inv_loadA, rfl, inv_reset, rfl⟩

/-- The last node (the root), a leaf, and the first index beyond. -/
theorem witness_NodeWindows : Inv builtA ∧ nodesA[8]? = some (.internal 6#32 6#16 7#16) ∧ 8 ≤ 2 * builtA.n - 2 ∧
    nodesA[4]? = some (.leaf 5#16 1#32) ∧ ¬9 ≤ 2 * builtA.n - 2 ∧ loadA.phase = .loading :=
  ⟨inv_builtA, by decide⟩

/-- The last entry, the first index beyond, the last bit of a code, the first position beyond. -/
theorem witness_TableAndCodeWindows : Inv codedA ∧ codedA.phase = .coded ∧ ftA[4]? = some ⟨5#16, 1#32⟩ ∧ codedA.n ≤ 5 ∧
    codesA[1]? = some [true, true, false] ∧ builtA.phase ≠ .coded :=
  ⟨inv_codedA, by decide⟩

theorem witness_ErrorEntryWritesFourRegisters : encode (.encSym 9#16) = 0x07000009#32 := by decide

theorem witness_ErrorsArePreciseAndComeFromCommands : loadA.err = false ∧
    nextState? (step (before (.write 0x010#12 0x06000000#32) loadA)) =
      some { errorEntry .sequenceError 0x06000000#32 loadA with pc := 1 } := by decide

/-- A step that keeps the error, and steps that clear it. -/
theorem witness_RecordedErrorIsKeptUntilCleared : failedA.err = true ∧
    (nextState? (step (before (.write 0x010#12 0x03000000#32) failedA))).map State.err = some true ∧
    (nextState? (step (before (.write 0x010#12 0x02000000#32) failedA))).map State.err = some false ∧
    (nextState? (step (before (.hwReset (some 0x05000000#32)) failedA))).map State.err = some false := by decide

theorem witness_FirstFailingCheckDecidesTheCode : Inv builtA ∧ builtA.err = false ∧ Inv failedA ∧ failedA.err = true ∧
    firstFailing (guardTable (.decBit 2#8) builtA) = some .truncatedOrCorruptStream ∧
    firstFailing (guardTable (.decBit 1#8) builtA) = none :=
  ⟨inv_builtA, rfl, inv_failedA, by decide⟩

theorem witness_PhaseTransitionTable : Inv State.reset ∧ State.reset.err = false ∧ Inv loadA ∧ loadA.err = false ∧
    Inv builtA ∧ builtA.err = false ∧ Inv codedA ∧ codedA.err = false :=
  ⟨inv_reset, rfl, inv_loadA, rfl, inv_builtA, rfl, inv_codedA, rfl⟩

theorem witness_HardwareResetEqualsSoftReset :
    (before (.hwReset (some 0x05000000#32)) loadA).pending = [.hwReset (some 0x05000000#32)] := by decide

theorem witness_RegistersReadAfterReset : nextState? (exec .sreset State.reset) = some State.reset ∧
    State.reset = State.resetFor Params.default := by decide

theorem witness_ClearErrorRegisters : Inv builtA ∧ builtA.err = false ∧
    (nextState? (exec (.decBit 2#8) builtA)).map State.err = some true :=
  ⟨inv_builtA, by decide⟩

theorem witness_FifoClear : (1#2 : BitVec 2).toNat % 2 = 1 ∧ (2#2 : BitVec 2).toNat / 2 = 1 := by decide

/-- A state for each clause: closed; count 0; symbol present; table full; accepted. -/
theorem witness_TableAppend :
    (builtA.phase = .built ∨ builtA.phase = .coded) ∧ State.reset.arg = 0#32 ∧ loadA.arg ≠ 0#32 ∧
    (∃ e ∈ loadA.ft, e.sym = 5#16) ∧ (¬∃ e ∈ loadA.ft, e.sym = 6#16) ∧ loadA.n ≠ loadA.cfg.nmax ∧
    State.n { loadA with cfg := { nmax := 5, obitsCap := 4, osymsCap := 1 } } = 5 := by decide

theorem witness_LoadingKeepsInsertionOrder : Inv State.reset ∧ State.reset.err = false ∧
    (State.reset.phase = .empty ∨ State.reset.phase = .loading) ∧ ftA ≠ [] ∧ (ftA.map Entry.sym).Nodup ∧
    (∀ e ∈ ftA, e.cnt ≠ 0#32) ∧ ftA.length ≤ State.reset.cfg.nmax :=
  ⟨inv_reset, by decide⟩

/-- The largest total that is accepted and the smallest that is not (TB-10, TB-15). -/
theorem witness_BuildBehaviour : Inv State.reset ∧ State.reset.phase = .empty ∧ Inv loadA ∧ loadA.phase ≠ .empty ∧
    totalCount [⟨0x41#16, 0xFFFFFFFE#32⟩, ⟨0x42#16, 1#32⟩] = 2 ^ 32 - 1 ∧
    2 ^ 32 - 1 < totalCount [⟨0x41#16, 0xFFFFFFFF#32⟩, ⟨0x42#16, 1#32⟩] :=
  ⟨inv_reset, rfl, inv_loadA, by decide⟩

/-- A state whose BUILD overflows meets the invariant (TB-15). -/
theorem witness_BuildBehaviour_overflow :
    Inv { State.reset with arg := 1#32, ft := [⟨0x41#16, 0xFFFFFFFF#32⟩, ⟨0x42#16, 1#32⟩], phase := .loading } := by
  constructor <;> decide

theorem witness_BuiltTreeShape : ftA ≠ [] ∧ ftA.length ≤ 32768 ∧ totalCount ftA ≤ 2 ^ 32 - 1 ∧
    ([⟨1#16, 1#32⟩] : List Entry) ≠ [] := by decide

theorem witness_SingleEntryTree : builtOne.ft = [⟨0x61#16, 4#32⟩] ∧ builtOne.phase ≠ .empty := by decide

theorem witness_BuildDependsOnTheTableAlone : loadA.ft = codedA.ft ∧ loadA.err = false ∧ codedA.err = false ∧
    nextState? (exec .build loadA) = some builtA ∧ nextState? (exec .build codedA) = some { builtA with codes := codesA } := by
  decide

/-- The deepest leaf of TB-8 (depth n−1 = 3) and the leaf of a single entry. -/
theorem witness_LeafDepthBound : Path nodesA 8 [true, true, false] 1 ∧ nodesA = buildTree ftA ∧
    Path (buildTree [⟨0x61#16, 4#32⟩]) 0 [] 0 ∧ Inv codedA ∧ codedA.phase = .coded :=
  ⟨.right (w := 6#32) (l := 6#16) (r := 7#16) rfl (.right (w := 4#32) (l := 0#16) (r := 5#16) rfl
      (.left (w := 2#32) (l := 1#16) (r := 2#16) rfl (.here 1))), by decide, .here 0, inv_codedA, rfl⟩

theorem witness_GeneratedCodesAreTheUniquePaths : Inv loadA ∧ loadA.phase = .loading ∧ Inv builtA ∧ builtA.phase = .built ∧
    Inv codedA ∧ codedA.phase = .coded :=
  ⟨inv_loadA, rfl, inv_builtA, rfl, inv_codedA, rfl⟩

theorem witness_SingleEntryCode : Inv builtOne ∧ builtOne.ft = [⟨0x61#16, 4#32⟩] ∧
    (builtOne.phase = .built ∨ builtOne.phase = .coded) :=
  ⟨inv_builtOne, by decide⟩

theorem witness_CodeTableProperties : Inv codedA ∧ codedA.phase = .coded ∧ 2 ≤ codedA.n := ⟨inv_codedA, by decide⟩

/-- A state for each clause; a code that just fits (TE-5) and one that does not (TE-4). -/
theorem witness_EncodeSymbolBehaviour : Inv codedA ∧ codedA.phase = .coded ∧ Inv builtA ∧ builtA.phase ≠ .coded ∧
    (∀ e ∈ codedA.ft, e.sym ≠ 9#16) ∧ codedA.ft[1]? = some ⟨2#16, 1#32⟩ ∧
    codedA.codes[1]? = some [true, true, false] ∧ codedA.obits = [] ∧ 2 + 3 ≤ 5 ∧ 4 < 2 + 3 :=
  ⟨inv_codedA, rfl, inv_builtA, by decide⟩

/-- TE-4's state meets the invariant. -/
theorem witness_EncodeSymbolBehaviour_full :
    Inv { codedA with cfg := { nmax := 5, obitsCap := 4, osymsCap := 1 }, obits := [true, false] } := by
  constructor <;> decide

/-- W-A1: the cat sat on the mat. -/
theorem witness_EncodingConcatenatesCodes : Inv codedA ∧ codedA.phase = .coded ∧
    [0, 1, 2, 3, 0, 4].map (fun j => codedA.ft[j]?) =
      [⟨1#16, 2#32⟩, ⟨2#16, 1#32⟩, ⟨3#16, 1#32⟩, ⟨4#16, 1#32⟩, ⟨1#16, 2#32⟩, ⟨5#16, 1#32⟩].map some ∧
    [0, 1].map (fun j => codedA.codes[j]?) = [[true, false], [true, true, false]].map some ∧
    codedA.obits.length + 14 ≤ codedA.cfg.obitsCap :=
  ⟨inv_codedA, by decide⟩

/-- A state for each clause: no tree; BV 2; one entry; a child that is internal; a child that is a leaf, with OSYMS full
and with room. -/
theorem witness_DecodeBitBehaviour : Inv loadA ∧ loadA.phase = .loading ∧ Inv builtA ∧ builtA.phase = .built ∧
    1 < (2#8 : BitVec 8).toNat ∧ Inv builtOne ∧ builtOne.n = 1 ∧ builtA.n ≠ 1 ∧
    nodesA[7]? = some (.internal 4#32 0#16 5#16) ∧ nodesA[0]? = some (.leaf 1#16 2#32) ∧
    builtA.osyms.length ≠ builtA.cfg.osymsCap :=
  ⟨inv_loadA, rfl, inv_builtA, rfl, by decide, inv_builtOne, by decide⟩

/-- TD-4's state before its fourth command meets the invariant, with OSYMS full. -/
theorem witness_DecodeBitBehaviour_full :
    Inv { builtA with cfg := { nmax := 256, obitsCap := 4096, osymsCap := 1 }, decptr := 6#16, osyms := [4#16] } := by
  constructor
  case pointerInTree => exact fun _ => .inr ⟨2#32, 3#16, 4#16, rfl⟩
  all_goals decide

theorem witness_DecodeEndBehaviour : loadA.phase = .loading ∧ builtA.phase = .built ∧
    State.decptr { builtA with decptr := 6#16 } ≠ 8#16 ∧ builtA.decptr.toNat = 2 * builtA.n - 2 ∧ Inv builtOne ∧
    builtOne.n = 1 := ⟨rfl, rfl, by decide, by decide, inv_builtOne, rfl⟩

theorem witness_DecodeResetBehaviour : Inv loadA ∧ loadA.phase = .loading ∧ Inv codedA ∧ codedA.phase = .coded :=
  ⟨inv_loadA, rfl, inv_codedA, rfl⟩

theorem witness_PointerStaysInTheTree : Inv builtA ∧ builtA.phase = .built ∧ 2 ≤ builtA.n ∧ Inv builtOne ∧ builtOne.n = 1 :=
  ⟨inv_builtA, rfl, by decide, inv_builtOne, rfl⟩

theorem witness_CodesAreRecognised : Inv builtA ∧ builtA.phase = .built ∧ 2 ≤ builtA.n ∧
    builtA.decptr.toNat = 2 * builtA.n - 2 ∧ genCodes builtA.n builtA.nodes = some codesA ∧
    builtA.ft[1]? = some ⟨2#16, 1#32⟩ ∧ codesA[1]? = some ([true] ++ [true, false]) ∧
    builtA.osyms.length + 1 ≤ builtA.cfg.osymsCap :=
  ⟨inv_builtA, by decide⟩

theorem witness_EveryBitStringIsCodesAndAProperPrefix : Inv builtA ∧ builtA.phase = .built ∧ 2 ≤ builtA.n ∧
    builtA.decptr.toNat = 2 * builtA.n - 2 ∧ genCodes builtA.n builtA.nodes = some codesA ∧
    builtA.osyms.length + [true, true].length ≤ builtA.cfg.osymsCap ∧ 1 < (255#8 : BitVec 8).toNat :=
  ⟨inv_builtA, by decide⟩

theorem witness_SingleSymbolStreamIsEmpty : Inv codedOne ∧ codedOne.ft = [⟨0x61#16, 4#32⟩] ∧ codedOne.phase = .coded :=
  ⟨inv_codedOne, by decide⟩

theorem witness_RoundTrip : Inv codedA ∧ codedA.phase = .coded ∧ 2 ≤ codedA.n ∧
    (∀ x ∈ [1#16, 2#16, 3#16, 4#16, 1#16, 5#16], x ∈ codedA.ft.map Entry.sym) ∧
    codedA.obits.length + 6 * (codedA.n - 1) ≤ codedA.cfg.obitsCap ∧ Inv builtA ∧ builtA.phase = .built ∧
    builtA.ft = codedA.ft ∧ builtA.decptr.toNat = 2 * builtA.n - 2 ∧ builtA.osyms.length + 6 ≤ builtA.cfg.osymsCap :=
  ⟨inv_codedA, rfl, by decide, by simp [codedA, builtA, loadA, ftA], by
    have h1 : codedA.n = 5 := rfl
    have h2 : codedA.cfg.obitsCap = 4096 := rfl
    have h3 : codedA.obits.length = 0 := rfl
    omega, inv_builtA, rfl, rfl, by decide, by decide⟩

theorem witness_EncodeThenDecodeSequences : Inv State.reset ∧ State.reset.err = false ∧ State.reset.phase = .empty ∧
    State.reset.obits = [] ∧ State.reset.osyms = [] ∧ 2 ≤ ftA.length ∧ ftA.length ≤ State.reset.cfg.nmax ∧
    (∀ e ∈ ftA, e.cnt ≠ 0#32) ∧ (ftA.map Entry.sym).Nodup ∧ totalCount ftA ≤ 2 ^ 32 - 1 ∧
    (∀ x ∈ [1#16, 2#16, 3#16, 4#16, 1#16, 5#16], x ∈ ftA.map Entry.sym) ∧
    6 ≤ State.reset.cfg.osymsCap ∧ 6 * (ftA.length - 1) ≤ State.reset.cfg.obitsCap :=
  ⟨inv_reset, rfl, rfl, rfl, rfl, by decide, by decide, by decide, by decide, by decide, by simp [ftA], by decide,
    by
      have h1 : ftA.length = 5 := rfl
      have h2 : State.reset.cfg.obitsCap = 4096 := rfl
      omega⟩

theorem witness_InvariantHoldsAtReset : Params.wf { nmax := 32768, obitsCap := 32767, osymsCap := 1 } = true := by decide

theorem witness_EveryStepKeepsTheInvariant : Inv codedA ∧
    nextState? (step (codedA.withFetchWord 32 0x03000000)) =
      some { codedA with ft := [], phase := .empty, decptr := 0#16, pc := 1 } :=
  ⟨inv_codedA, by decide⟩

theorem witness_EveryStepCompletes : Inv State.reset ∧ Inv codedA ∧ Inv codedOne ∧ Inv failedA :=
  ⟨inv_reset, inv_codedA, inv_codedOne, inv_failedA⟩

theorem witness_EveryProgramRunsToItsEnd : Inv (before (.write 0x010#12 0x03000000#32) State.reset) := by
  constructor <;> decide

/-- Two states that differ in NODES and CODES, in LOADING; and in CODES alone, in BUILT. -/
theorem witness_UnobservableContentsStayUnobservable :
    SameObservable loadA { loadA with nodes := nodesA, codes := codesA } ∧
    SameObservable builtA { builtA with codes := codesA } :=
  ⟨⟨rfl, fun h => absurd h (by decide), fun h => absurd h (by decide)⟩, ⟨rfl, fun _ => rfl, fun h => absurd h (by decide)⟩⟩

theorem witness_WritersOfEachStateElement : nextState? (exec (.encSym 2#16) codedA) =
    some { codedA with obits := [true, true, false] } := by decide

end Sys2Proof.Tests
end

section
/-! PROOFS. The scope's statements (00_scope.md): the stable sort of R9 and the reset state of R6. -/

namespace Sys2Proof.Machine

/-! ### The stable sort -/

theorem stableSortBy_filter {α : Type} (key : α → Nat) (k : Nat) (l : List α) :
    (stableSortBy key l).filter (fun a => key a = k) = l.filter (fun a => key a = k) := by
  induction l with
  | nil => rfl
  | cons x xs ih => rw [stableSortBy, insertByKey_filter, List.filter_cons, List.filter_cons, ih]

/-- The head of a sorted list has the least key of all that has the same elements of each key. -/
theorem key_head_le_of_filter_eq {α : Type} {key : α → Nat} {a b : α} {l m : List α}
    (hm : (b :: m).Pairwise fun x y => key x ≤ key y)
    (hf : ∀ k, (a :: l).filter (fun x => key x = k) = (b :: m).filter (fun x => key x = k)) : key b ≤ key a := by
  have ha : a ∈ (b :: m).filter (fun x => key x = key a) := hf (key a) ▸ by simp
  rcases List.mem_cons.1 (List.mem_of_mem_filter ha) with rfl | ha
  · exact le_rfl
  · exact (List.pairwise_cons.1 hm).1 a ha

/-- A sorted list is determined by its elements of each key, in their order. -/
theorem eq_of_sorted_of_filter_eq {α : Type} {key : α → Nat} {l m : List α}
    (hl : l.Pairwise fun x y => key x ≤ key y) (hm : m.Pairwise fun x y => key x ≤ key y)
    (hf : ∀ k, l.filter (fun x => key x = k) = m.filter (fun x => key x = k)) : l = m := by
  induction l generalizing m with
  | nil =>
    cases m with
    | nil => rfl
    | cons b m => simpa using hf (key b)
  | cons a l ih =>
    cases m with
    | nil => simpa using hf (key a)
    | cons b m =>
      have hkey : key a = key b :=
        le_antisymm (key_head_le_of_filter_eq hl fun k => (hf k).symm) (key_head_le_of_filter_eq hm hf)
      have hab : a = b := by
        have := hf (key a)
        simp only [List.filter_cons, hkey, decide_true, if_true, List.cons.injEq] at this
        exact this.1
      subst hab
      have htail : l = m := by
        refine ih (List.pairwise_cons.1 hl).2 (List.pairwise_cons.1 hm).2 fun k => ?_
        have := hf k
        simp only [List.filter_cons] at this
        split at this
        · exact (List.cons.inj this).2
        · exact this
      rw [htail]

/-- Settles O33: the sort has the three properties, and a sorted list is determined by its elements of each key. -/
theorem stableSortIsTheStableSort : Obligations.StableSortIsTheStableSort := by
  intro key l l'
  constructor
  · rintro rfl
    exact ⟨stableSortBy_perm key l, stableSortBy_sorted key l, fun k => stableSortBy_filter key k l⟩
  · rintro ⟨-, hsorted, hfilter⟩
    exact eq_of_sorted_of_filter_eq hsorted (stableSortBy_sorted key l) fun k =>
      (hfilter k).trans (stableSortBy_filter key k l).symm

/-! ### The reset state -/

theorem inv_resetFor {p : Params} (hp : p.wf = true) : Inv (State.resetFor p) where
  cfgLegal := hp
  tableFits := Nat.zero_le _
  countsPositive := by simp [State.resetFor]
  symbolsDistinct := List.nodup_nil
  emptyIff := iff_of_true rfl rfl
  totalFits := nofun
  nodesBuilt := nofun
  codesDerived := nofun
  pointerInTree := nofun
  pointerIdle _ := rfl
  bitsFit := Nat.zero_le _
  symsFit := Nat.zero_le _
  noErrorClear _ := ⟨rfl, rfl, rfl⟩
  errorCoded := nofun

/-- Settles O55: the default parameters of R6 are legal, so State.reset is one of the instances. -/
theorem invariantHoldsAtReset : Obligations.InvariantHoldsAtReset :=
  ⟨inv_resetFor (by decide), fun _ hp => inv_resetFor hp⟩

end Sys2Proof.Machine
end

section
/-! PROOFS. The round trip of 00_scope.md R14: what one ENC_SYM appends is the path to a leaf (R141, R160), the DEC_BITs of
such a path emit that leaf's symbol and return to the root (R181, R186); then both by induction over the sequence. -/

namespace Sys2Proof.Machine

/-- Following `c` from node `v` leads to a leaf of `sym` (R141). -/
def LeafPath (nodes : List Node) (v : Nat) (c : Code) (sym : Sym) : Prop :=
  ∃ i wt, nodes[i]? = some (.leaf sym wt) ∧ Path nodes v c i

theorem leafPath_cons {nodes : List Node} {v : Nat} {b : Bit} {c : Code} {sym : Sym}
    (h : LeafPath nodes v (b :: c) sym) :
    ∃ wt l r, nodes[v]? = some (.internal wt l r) ∧ LeafPath nodes (if b then r else l).toNat c sym := by
  obtain ⟨i, wi, hi, hp⟩ := h
  obtain ⟨wt, l, r, hv, hp⟩ := hp.cons_inv
  exact ⟨wt, l, r, hv, i, wi, hi, hp⟩

theorem leafPath_nil {nodes : List Node} {v : Nat} {sym : Sym} :
    LeafPath nodes v [] sym ↔ ∃ wt, nodes[v]? = some (.leaf sym wt) := by
  constructor
  · rintro ⟨i, wt, hi, hp⟩
    exact ⟨wt, hp.nil_inv ▸ hi⟩
  · rintro ⟨wt, h⟩
    exact ⟨v, wt, h, .here v⟩

theorem execAll_cons_next {i : Instr} {is : List Instr} {s t : State} (h : exec i s = .next t) :
    execAll (i :: is) s = execAll is t := by
  rw [execAll, h]

theorem execAll_append_next {a b : List Instr} {s t : State} (h : execAll a s = .next t) :
    execAll (a ++ b) s = execAll b t := by
  rw [execAll_append, h]

/-! ### The decoder -/

theorem decBits_append (c d : Code) : decBits (c ++ d) = decBits c ++ decBits d := List.map_append

/-- DEC_BIT moves to an internal child (R181). -/
theorem exec_decBit_internal {u : State} {b : Bit} {c : NodeIdx} {wt : Word} {l r : NodeIdx}
    (hv : u.treeValid = true) (hn : u.n ≠ 1) (ht : decTarget b u = some (c, .internal wt l r)) :
    exec (.decBit (bvOf b)) u = .next { u with decptr := c } := by
  simp [exec, execDecBit, hv, bitOf_bvOf, hn, ht]

/-- DEC_BIT emits the symbol of a leaf and returns to the root (R181). -/
theorem exec_decBit_leaf {u : State} {b : Bit} {c : NodeIdx} {sym : Sym} {wt : Word}
    (hv : u.treeValid = true) (hn : u.n ≠ 1) (ht : decTarget b u = some (c, .leaf sym wt))
    (hroom : u.osyms.length < u.cfg.osymsCap) :
    exec (.decBit (bvOf b)) u = .next { pushSym sym u with decptr := u.rootPtr } := by
  simp [exec, execDecBit, hv, bitOf_bvOf, hn, ht, hroom.ne]

theorem exec_decEnd_root {u : State} (hv : u.treeValid = true) (hp : u.decptr.toNat = u.rootIdx) :
    exec .decEnd u = .next u := by
  simp [exec, execDecEnd, hv, hp]

/-- The DEC_BITs of a path from the pointer to a leaf, wherever in the tree the pointer is. -/
theorem execAll_decBits_leafPath {u : State} {b : Bit} {c : Code} {sym : Sym} (hv : u.treeValid = true) (hn : u.n ≠ 1)
    (hroom : u.osyms.length < u.cfg.osymsCap) (h : LeafPath u.nodes u.decptr.toNat (b :: c) sym) :
    execAll (decBits (b :: c)) u = .next { pushSym sym u with decptr := u.rootPtr } := by
  induction c generalizing u b with
  | nil =>
    obtain ⟨wt, l, r, hp, h⟩ := leafPath_cons h
    obtain ⟨wl, hl⟩ := leafPath_nil.1 h
    have ht := decTarget_some.2 ⟨wt, l, r, hp, rfl, hl⟩
    exact execAll_cons_next (exec_decBit_leaf hv hn ht hroom)
  | cons b' c ih =>
    obtain ⟨wt, l, r, hp, h⟩ := leafPath_cons h
    obtain ⟨wc, lc, rc, hc, -⟩ := leafPath_cons h
    have ht := decTarget_some.2 ⟨wt, l, r, hp, rfl, hc⟩
    exact (execAll_cons_next (exec_decBit_internal hv hn ht)).trans
      (ih (u := { u with decptr := if b then r else l }) hv hn hroom h)

/-- R186: from the root of a tree that is not a single leaf, the DEC_BITs of paths to leaves emit the leaves' symbols in
order, and the pointer is at the root again. -/
theorem execAll_decBits_leafPaths {u : State} {cs : List Code} {syms : List Sym} (hv : u.treeValid = true)
    (hn : u.n ≠ 1) (hptr : u.decptr = u.rootPtr)
    (hinner : ∀ sym wt, u.nodes[u.decptr.toNat]? ≠ some (.leaf sym wt))
    (hroom : u.osyms.length + syms.length ≤ u.cfg.osymsCap)
    (h : List.Forall₂ (LeafPath u.nodes u.decptr.toNat) cs syms) :
    execAll (decBits cs.flatten) u = .next { u with osyms := u.osyms ++ syms } := by
  induction cs generalizing u syms with
  | nil =>
    cases h
    simp [decBits, execAll]
  | cons c cs ih =>
    cases h with
    | @cons _ sym _ syms hc hcs =>
    simp only [List.length_cons] at hroom
    cases c with
    | nil =>
      obtain ⟨wt, hleaf⟩ := leafPath_nil.1 hc
      exact absurd hleaf (hinner sym wt)
    | cons b c =>
      have hfirst : execAll (decBits (b :: c)) u = .next (pushSym sym u) := by
        rw [execAll_decBits_leafPath hv hn (by omega) hc, ← hptr]
        rfl
      have hrest := ih (u := pushSym sym u) hv hn hptr hinner (by simp; omega) hcs
      rw [List.flatten_cons, decBits_append, execAll_append_next hfirst]
      simpa [pushSym] using hrest

/-! ### The encoder -/

/-- ENC_SYM appends the code of the symbol's entry (R160). -/
theorem exec_encSym_code {s : State} {sym : Sym} {i : Nat} {c : Code} (hv : s.codesValid = true)
    (hi : lookupSym sym s.ft = some i) (hc : s.codes[i]? = some c)
    (hroom : s.obits.length + c.length ≤ s.cfg.obitsCap) : exec (.encSym sym) s = .next (pushBits c s) := by
  simp [exec, execEncSym, hv, hi, hc, Nat.not_lt.2 hroom]

theorem inv_pushBits {s : State} {c : Code} (h : Inv s) (hroom : s.obits.length + c.length ≤ s.cfg.obitsCap) :
    Inv (pushBits c s) :=
  { h with bitsFit := by simpa using hroom }

/-- R39, R129, R160: ENC_SYM of a loaded symbol, with room for n−1 bits, appends the path from the root to its leaf, which
has at most n−1 bits. -/
theorem Inv.exec_encSym_leafPath {s : State} {sym : Sym} (h : Inv s) (hv : s.codesValid = true)
    (hm : sym ∈ s.ft.map Entry.sym) (hroom : s.obits.length + (s.n - 1) ≤ s.cfg.obitsCap) :
    ∃ c, LeafPath s.nodes s.rootIdx c sym ∧ c.length ≤ s.n - 1 ∧ exec (.encSym sym) s = .next (pushBits c s) := by
  have htree := State.treeValid_of_codesValid hv
  have hshape := h.shape htree
  obtain ⟨i, hi⟩ := Option.isSome_iff_exists.1 (lookupSym_isSome.2 hm)
  obtain ⟨hlt, rfl⟩ := lookupSym_some hi
  obtain ⟨c, hc⟩ := h.code_at hv hlt
  have hpath := ((hshape.codes_path (h.codesDerived hv)).2 i c hc).2
  have hlen : c.length ≤ s.n - 1 := by
    have := hshape.path_length_lt hpath
    omega
  exact ⟨c, ⟨i, _, (h.grown htree).leaves i hlt, hpath⟩, hlen, exec_encSym_code hv hi hc (by omega)⟩

/-- R162: the ENC_SYMs of loaded symbols append, in order, the paths to their leaves. -/
theorem Inv.execAll_encSym_leafPaths {s : State} {syms : List Sym} (h : Inv s) (hv : s.codesValid = true)
    (hm : ∀ x ∈ syms, x ∈ s.ft.map Entry.sym)
    (hroom : s.obits.length + syms.length * (s.n - 1) ≤ s.cfg.obitsCap) :
    ∃ cs, List.Forall₂ (LeafPath s.nodes s.rootIdx) cs syms ∧
      execAll (syms.map .encSym) s = .next (pushBits cs.flatten s) := by
  induction syms generalizing s with
  | nil => exact ⟨[], .nil, by simp [execAll, pushBits]⟩
  | cons sym syms ih =>
    rw [List.length_cons, Nat.succ_mul] at hroom
    obtain ⟨c, hc, hlen, hexec⟩ := h.exec_encSym_leafPath hv (hm sym List.mem_cons_self) (by omega)
    obtain ⟨cs, hcs, hrest⟩ := ih (inv_pushBits (c := c) h (by omega)) hv
      (fun x hx => hm x (List.mem_cons_of_mem _ hx)) (by simp; omega)
    refine ⟨c :: cs, .cons hc hcs, ?_⟩
    rw [List.map_cons, execAll_cons_next hexec]
    simpa [pushBits] using hrest

/-! ### The round trip -/

/-- R124: two valid trees of one table are the same tree. -/
theorem Inv.nodes_eq_of_ft_eq {s u : State} (hs : Inv s) (hu : Inv u) (hsv : s.treeValid = true)
    (huv : u.treeValid = true) (hft : u.ft = s.ft) : u.nodes = s.nodes := by
  rw [hu.nodesBuilt huv, hs.nodesBuilt hsv, hft]

/-- Settles O53: the bits are the concatenated paths that ENC_SYM appends, and they are paths in the decoder's tree too,
because both trees come from the same table. -/
theorem roundTrip : Obligations.RoundTrip := by
  intro s u syms hs hcoded hn hm hbits hu huphase hft hptr hsyms
  have hsv : s.codesValid = true := State.codesValid_iff.2 hcoded
  have huv : u.treeValid = true := State.treeValid_iff.2 huphase
  have hnodes := hs.nodes_eq_of_ft_eq hu (State.treeValid_of_codesValid hsv) huv hft
  have hun : u.n = s.n := congrArg List.length hft
  have hroot : u.decptr.toNat = s.rootIdx := by rw [hptr, hun, State.rootIdx]
  obtain ⟨cs, hcs, hencode⟩ := hs.execAll_encSym_leafPaths hsv hm hbits
  refine ⟨cs.flatten, hencode, ?_⟩
  have hinner : ∀ sym wt, u.nodes[u.decptr.toNat]? ≠ some (.leaf sym wt) := by
    obtain ⟨wt, l, r, hp⟩ := hu.pointer huv (by omega)
    simp [hp]
  have hdecode := execAll_decBits_leafPaths huv (by omega)
    (BitVec.eq_of_toNat_eq (hptr.trans (State.rootPtr_toNat hu.small).symm)) hinner hsyms
    (by rw [hnodes, hroot]; exact hcs)
  rw [execAll_append_next hdecode]
  exact execAll_cons_next (exec_decEnd_root (u := { u with osyms := u.osyms ++ syms }) huv hptr)

end Sys2Proof.Machine
end

section
/-! PROOFS. The invariant as a step lemma (10_state.md R27 to R42, 44_decoder.md R184): every command's effect keeps it, so
every host operation and every step does. -/

namespace Sys2Proof.Machine

/-- The table and its counts may be emptied, with PHASE and DECPTR (R101). -/
theorem Inv.tableCleared {s : State} (h : Inv s) : Inv { s with ft := [], phase := .empty, decptr := 0#16 } :=
  { h with
    tableFits := Nat.zero_le _
    countsPositive := nofun
    symbolsDistinct := List.nodup_nil
    emptyIff := iff_of_true rfl rfl
    totalFits := nofun
    nodesBuilt := nofun
    codesDerived := nofun
    pointerInTree := nofun
    pointerIdle := fun _ => rfl }

/-- A new symbol with a positive count, where there is room, keeps the table a mapping within NMAX (R34, R102). -/
theorem Inv.entryAppended {s : State} {e : Entry} (h : Inv s) (hv : s.treeValid = false) (hcnt : e.cnt ≠ 0#32)
    (hnew : e.sym ∉ s.ft.map Entry.sym) (hroom : s.n ≠ s.cfg.nmax) :
    Inv { s with ft := s.ft ++ [e], phase := .loading } :=
  { h with
    tableFits := by
      have := Nat.lt_of_le_of_ne h.tableFits hroom
      simpa using this
    countsPositive := by
      intro x hx
      rcases List.mem_append.1 hx with hx | hx
      · exact h.countsPositive x hx
      · exact List.mem_singleton.1 hx ▸ hcnt
    symbolsDistinct := by
      rw [List.map_append, List.map_singleton, List.nodup_append_comm]
      exact List.nodup_cons.2 ⟨hnew, h.symbolsDistinct⟩
    emptyIff := by simp
    totalFits := nofun
    nodesBuilt := nofun
    codesDerived := nofun
    pointerInTree := nofun
    pointerIdle := fun _ => h.pointerIdle hv }

/-- The table's tree with DECPTR at its root is a valid tree (R35, R36, R40, R121). -/
theorem Inv.built {s : State} (h : Inv s) (hne : s.phase ≠ .empty) (htotal : totalCount s.ft ≤ 2 ^ 32 - 1) :
    Inv { s with nodes := buildTree s.ft, phase := .built, decptr := s.rootPtr } :=
  { h with
    emptyIff := iff_of_false nofun (mt h.emptyIff.2 hne)
    totalFits := fun _ => htotal
    nodesBuilt := fun _ => rfl
    codesDerived := nofun
    pointerInTree := fun _ => .inl (State.rootPtr_toNat h.small)
    pointerIdle := nofun }

/-- The codes of a valid tree are a valid code table (R39, R140). -/
theorem Inv.coded {s : State} (h : Inv s) (hv : s.treeValid = true) {codes : List Code}
    (hcodes : genCodes s.n s.nodes = some codes) : Inv { s with codes := codes, phase := .coded } :=
  { h with
    emptyIff := iff_of_false nofun (h.ft_ne_nil hv)
    totalFits := fun _ => h.totalFits hv
    nodesBuilt := fun _ => h.nodesBuilt hv
    codesDerived := fun _ => hcodes
    pointerInTree := fun _ => h.pointerInTree hv
    pointerIdle := nofun }

/-- The pointer is at the root after a move there (R40, R183). -/
theorem Inv.rewound {s : State} (h : Inv s) (hv : s.treeValid = true) : Inv { s with decptr := s.rootPtr } :=
  h.moved hv (.inl (State.rootPtr_toNat h.small))

/-- A symbol may be appended to OSYMS while it is not full (R42). -/
theorem Inv.pushSym {s : State} {sym : Sym} (h : Inv s) (hroom : s.osyms.length ≠ s.cfg.osymsCap) :
    Inv (Sys2Proof.Machine.pushSym sym s) :=
  { h with
    symsFit := by
      have := Nat.lt_of_le_of_ne h.symsFit hroom
      simpa using this }

theorem Effect.inv {i : Instr} {s t : State} (he : Effect i s t) (h : Inv s) : Inv t := by
  cases i with
  | nop => exact he ▸ h
  | sreset => exact he ▸ h.coreReset
  | clrerr => exact he ▸ h.errorReturn
  | ftClear => exact he ▸ h.tableCleared
  | ftAppend sym =>
    obtain ⟨hv, hcnt, hnew, hroom, rfl⟩ := he
    exact h.entryAppended hv hcnt hnew hroom
  | build =>
    obtain ⟨hne, htotal, rfl⟩ := he
    exact h.built hne htotal
  | gencodes =>
    obtain ⟨hv, codes, hcodes, rfl⟩ := he
    exact h.coded hv hcodes
  | encSym sym =>
    obtain ⟨-, j, code, -, -, hroom, rfl⟩ := he
    exact inv_pushBits h hroom
  | decBit bv =>
    obtain ⟨hv, -, b, c, nd, -, htarget, he⟩ := he
    rcases he with ⟨sym, wt, -, hroom, rfl⟩ | ⟨wt, l, r, rfl, rfl⟩
    · exact (h.pushSym hroom).rewound hv
    · obtain ⟨-, -, -, -, -, hc⟩ := decTarget_some.1 htarget
      exact h.moved hv (.inr ⟨wt, l, r, hc⟩)
  | decEnd =>
    obtain ⟨-, -, rfl⟩ := he
    exact h
  | decRst =>
    obtain ⟨hv, rfl⟩ := he
    exact h.rewound hv
  | fifoClr sel =>
    obtain rfl := he
    refine h.host ?_ ?_
    · split
      · exact Nat.zero_le _
      · exact h.bitsFit
    · split
      · exact Nat.zero_le _
      · exact h.symsFit

theorem Inv.exec {i : Instr} {s t : State} (h : Inv s) (he : Sys2Proof.Machine.exec i s = .next t) : Inv t := by
  rcases exec_next he with ⟨c, hc, rfl⟩ | he
  · exact h.errorEntry hc
  · exact he.inv h

theorem CmdEffect.inv {w : Word} {s t : State} (hc : CmdEffect w s t) (h : Inv s) : Inv t := by
  rcases hc with ⟨-, -, rfl⟩ | ⟨-, -, rfl⟩ | ⟨-, -, -, rfl⟩ | ⟨-, -, rfl⟩ | ⟨-, i, -, he⟩
  · exact h.coreReset
  · exact h.errorReturn
  · exact h
  · exact h.errorEntry (by decide)
  · exact h.exec he

theorem Inv.memReadEffect {a : Offset} {s : State} (h : Inv s) : Inv (Sys2Proof.Machine.memReadEffect a s) := by
  rcases memReadEffect_cases a s with ⟨-, he⟩ | ⟨-, he⟩ | ⟨-, -, he⟩ <;> rw [he]
  · exact h.host ((List.tail_sublist _).length_le.trans h.bitsFit) h.symsFit
  · exact h.host h.bitsFit ((List.tail_sublist _).length_le.trans h.symsFit)
  · exact h

theorem OpEffect.inv {op : BusOp} {s t : State} (ho : OpEffect op s t) (h : Inv s) : Inv t := by
  cases op with
  | read a =>
    obtain rfl := ho
    exact h.memReadEffect.host h.memReadEffect.bitsFit h.memReadEffect.symsFit
  | write a v =>
    rcases ho with ⟨-, hc⟩ | ⟨-, rfl⟩ | ⟨-, rfl⟩ | ⟨-, -, -, rfl⟩
    · exact hc.inv h
    · exact h.host h.bitsFit h.symsFit
    · exact h.host h.bitsFit h.symsFit
    · exact h
  | hwReset abandoned => exact ho ▸ h.coreReset

theorem Inv.advance {rest : List BusOp} {s : State} (h : Inv s) : Inv (Sys2Proof.Machine.advance rest s) :=
  h.host h.bitsFit h.symsFit

/-- Settles O56: a step is idle or the effect of one operation, and each effect keeps the invariant. -/
theorem everyStepKeepsTheInvariant : Obligations.EveryStepKeepsTheInvariant := by
  intro s t h hstep
  rcases step_next hstep with ⟨-, rfl⟩ | ⟨op, rest, -, ho⟩
  · exact h
  · exact ho.inv h.advance

end Sys2Proof.Machine
end

section
/-! PROOFS. What the core keeps but does not show (10_state.md R28, R48): NODES without a valid tree and CODES without a
valid code table enter no guard, no effect and no value read. -/

namespace Sys2Proof.Machine

section Alike
variable {s t : State}

theorem SameObservable.refl (s : State) : SameObservable s s := ⟨rfl, fun _ => rfl, fun _ => rfl⟩

/-! ### What two such states share -/

theorem SameObservable.cfg (h : SameObservable s t) : t.cfg = s.cfg := by rw [h.1]
theorem SameObservable.phase (h : SameObservable s t) : t.phase = s.phase := by rw [h.1]
theorem SameObservable.err (h : SameObservable s t) : t.err = s.err := by rw [h.1]
theorem SameObservable.ft (h : SameObservable s t) : t.ft = s.ft := by rw [h.1]
theorem SameObservable.decptr (h : SameObservable s t) : t.decptr = s.decptr := by rw [h.1]
theorem SameObservable.osyms (h : SameObservable s t) : t.osyms = s.osyms := by rw [h.1]
theorem SameObservable.pending (h : SameObservable s t) : t.pending = s.pending := by rw [h.1]
theorem SameObservable.n (h : SameObservable s t) : t.n = s.n := by rw [h.1]; rfl
theorem SameObservable.count (h : SameObservable s t) : t.count = s.count := by rw [h.1]; rfl
theorem SameObservable.rootIdx (h : SameObservable s t) : t.rootIdx = s.rootIdx := by rw [h.1]; rfl
theorem SameObservable.treeValid (h : SameObservable s t) : t.treeValid = s.treeValid := by rw [h.1]; rfl
theorem SameObservable.codesValid (h : SameObservable s t) : t.codesValid = s.codesValid := by rw [h.1]; rfl

theorem SameObservable.nodes (h : SameObservable s t) (hv : s.treeValid = true) : t.nodes = s.nodes := h.2.1 hv

/-- With a valid code table the tree is valid too, and nothing is unobservable. -/
theorem SameObservable.eq_of_codesValid (h : SameObservable s t) (hv : s.codesValid = true) : t = s := by
  obtain ⟨ht, hnodes, hcodes⟩ := h
  rw [ht, hnodes (State.treeValid_of_codesValid hv), hcodes hv]

/-- An update that passes NODES and CODES through, and makes neither valid, leaves the states alike. -/
theorem SameObservable.map {f : State → State}
    (hf : ∀ s ns cs, f { s with nodes := ns, codes := cs } = { f s with nodes := ns, codes := cs })
    (htree : (f s).treeValid = true → s.treeValid = true) (hcode : (f s).codesValid = true → s.codesValid = true)
    (h : SameObservable s t) : SameObservable (f s) (f t) := by
  obtain ⟨ht, hnodes, hcodes⟩ := h
  have hft : f t = { f s with nodes := t.nodes, codes := t.codes } := (congrArg f ht).trans (hf s _ _)
  have hfs : f s = { f s with nodes := s.nodes, codes := s.codes } := hf s _ _
  refine ⟨?_, fun hv => ?_, fun hv => ?_⟩
  · rw [hft]
  · rw [hft, hfs]
    exact hnodes (htree hv)
  · rw [hft, hfs]
    exact hcodes (hcode hv)

/-! ### Commands -/

theorem SameObservable.coreReset (h : SameObservable s t) : SameObservable (coreReset s) (coreReset t) :=
  h.map (fun _ _ _ => rfl) nofun nofun

theorem SameObservable.errorReturn (h : SameObservable s t) : SameObservable (errorReturn s) (errorReturn t) :=
  h.map (fun _ _ _ => rfl) id id

theorem SameObservable.errorEntry (h : SameObservable s t) (c : ECode) (w : Word) :
    SameObservable (errorEntry c w s) (errorEntry c w t) :=
  h.map (fun _ _ _ => rfl) id id

theorem SameObservable.raise (h : SameObservable s t) (c : ECode) (i : Instr) :
    ResultRel SameObservable (raise c i s) (raise c i t) :=
  h.errorEntry c (encode i)

theorem SameObservable.execFtClear (h : SameObservable s t) :
    ResultRel SameObservable (execFtClear s) (execFtClear t) :=
  h.map (f := fun s => { s with ft := [], phase := .empty, decptr := 0#16 }) (fun _ _ _ => rfl) nofun nofun

theorem SameObservable.execFifoClr (h : SameObservable s t) (sel : BitVec 2) :
    ResultRel SameObservable (execFifoClr sel s) (execFifoClr sel t) :=
  h.map (f := fun s => { s with
      obits := if sel.getLsbD 0 then [] else s.obits, osyms := if sel.getLsbD 1 then [] else s.osyms })
    (fun _ _ _ => rfl) id id

/-- Two meanings with the same guard are alike when both branches are. -/
theorem ResultRel.ite {R : State → State → Prop} {p q : Prop} [Decidable p] [Decidable q] {a b a' b' : Result}
    (hpq : q ↔ p) (hthen : p → ResultRel R a a') (helse : ¬p → ResultRel R b b') :
    ResultRel R (if p then a else b) (if q then a' else b') := by
  by_cases hp : p
  · rw [if_pos hp, if_pos (hpq.2 hp)]
    exact hthen hp
  · rw [if_neg hp, if_neg (mt hpq.1 hp)]
    exact helse hp

theorem ResultRel.refl {R : State → State → Prop} (hR : ∀ s, R s s) (x : Result) : ResultRel R x x := by
  cases x with
  | next s => exact hR s
  | fault f => rfl
  | refused r => rfl

theorem SameObservable.execFtAppend (h : SameObservable s t) (sym : Sym) :
    ResultRel SameObservable (execFtAppend sym s) (execFtAppend sym t) := by
  refine .ite (by rw [h.treeValid]) (fun _ => h.raise _ _) fun _ => ?_
  refine .ite (by rw [h.count]) (fun _ => h.raise _ _) fun _ => ?_
  refine .ite (by rw [h.ft]) (fun _ => h.raise _ _) fun _ => ?_
  refine .ite (by rw [h.n, h.cfg]) (fun _ => h.raise _ _) fun _ => ?_
  exact h.map (f := fun s => { s with ft := s.ft ++ [{ sym := sym, cnt := s.count }], phase := .loading })
    (fun _ _ _ => rfl) nofun nofun

/-- BUILD writes NODES from the table alone, and leaves no valid code table (R124, R145). -/
theorem SameObservable.execBuild (h : SameObservable s t) : ResultRel SameObservable (execBuild s) (execBuild t) := by
  refine .ite (by rw [h.phase]) (fun _ => h.raise _ _) fun _ => ?_
  refine .ite (by rw [h.ft]) (fun _ => h.raise _ _) fun _ => ?_
  refine ⟨?_, fun _ => ?_, nofun⟩
  · rw [h.1]
    rfl
  · exact congrArg buildTree h.ft

/-- GENCODES reads NODES of a valid tree only and writes CODES whole (R140). -/
theorem SameObservable.execGencodes (h : SameObservable s t) :
    ResultRel SameObservable (execGencodes s) (execGencodes t) := by
  refine .ite (by rw [h.treeValid]) (fun hv => ?_) fun _ => h.raise _ _
  rw [h.n, h.nodes hv]
  cases genCodes s.n s.nodes with
  | none => rfl
  | some codes =>
    refine ⟨?_, fun _ => rfl, fun _ => rfl⟩
    rw [h.1]

theorem SameObservable.execEncSym (h : SameObservable s t) (sym : Sym) :
    ResultRel SameObservable (execEncSym sym s) (execEncSym sym t) := by
  by_cases hv : s.codesValid = true
  · rw [h.eq_of_codesValid hv]
    exact .refl .refl _
  · exact .ite (by rw [h.codesValid]) (fun hv' => absurd hv' hv) fun _ => h.raise _ _

theorem SameObservable.decTarget (h : SameObservable s t) (hv : s.treeValid = true) (b : Bit) :
    decTarget b t = decTarget b s := by
  simp only [Machine.decTarget, h.decptr, h.nodes hv]

theorem SameObservable.execDecBit (h : SameObservable s t) (bv : BitVec 8) :
    ResultRel SameObservable (execDecBit bv s) (execDecBit bv t) := by
  refine .ite (by rw [h.treeValid]) (fun hv => ?_) fun _ => h.raise _ _
  cases bitOf bv with
  | none => exact h.raise _ _
  | some b =>
    refine .ite (by rw [h.n]) (fun _ => h.raise _ _) fun _ => ?_
    rw [h.decTarget hv]
    rcases Machine.decTarget b s with _ | ⟨c, ⟨sym, wt⟩ | ⟨wt, l, r⟩⟩
    · rfl
    · refine .ite (by rw [h.osyms, h.cfg]) (fun _ => h.raise _ _) fun _ => ?_
      exact h.map (f := fun s => { pushSym sym s with decptr := s.rootPtr }) (fun _ _ _ => rfl) id id
    · exact h.map (f := fun s => { s with decptr := c }) (fun _ _ _ => rfl) id id

theorem SameObservable.execDecEnd (h : SameObservable s t) :
    ResultRel SameObservable (execDecEnd s) (execDecEnd t) := by
  refine .ite (by rw [h.treeValid]) (fun _ => ?_) fun _ => h.raise _ _
  exact .ite (by rw [h.decptr, h.rootIdx]) (fun _ => h.raise _ _) fun _ => h

theorem SameObservable.execDecRst (h : SameObservable s t) :
    ResultRel SameObservable (execDecRst s) (execDecRst t) := by
  refine .ite (by rw [h.treeValid]) (fun _ => ?_) fun _ => h.raise _ _
  exact h.map (f := fun s => { s with decptr := s.rootPtr }) (fun _ _ _ => rfl) id id

theorem SameObservable.exec (h : SameObservable s t) (i : Instr) :
    ResultRel SameObservable (exec i s) (exec i t) := by
  cases i with
  | nop => exact h
  | sreset => exact h.coreReset
  | clrerr => exact h.errorReturn
  | ftClear => exact h.execFtClear
  | ftAppend sym => exact h.execFtAppend sym
  | build => exact h.execBuild
  | gencodes => exact h.execGencodes
  | encSym sym => exact h.execEncSym sym
  | decBit bv => exact h.execDecBit bv
  | decEnd => exact h.execDecEnd
  | decRst => exact h.execDecRst
  | fifoClr sel => exact h.execFifoClr sel

theorem SameObservable.execWord (h : SameObservable s t) (w : Word) :
    ResultRel SameObservable (execWord w s) (execWord w t) := by
  refine .ite (by rw [h.err]) (fun _ => ?_) fun _ => ?_
  · exact .ite .rfl (fun _ => h.exec _) fun _ => .ite .rfl (fun _ => h.exec _) fun _ => h
  · cases decode w with
    | illegal why => exact h.errorEntry _ _
    | cmd i => exact h.exec i

/-! ### Reads -/

/-- The windows look at NODES behind the tree's validity (R46). -/
theorem SameObservable.shownNode (h : SameObservable s t) (i : Nat) : shownNode t i = shownNode s i := by
  unfold Machine.shownNode
  rw [h.treeValid, h.rootIdx]
  cases hv : s.treeValid with
  | false => rfl
  | true => rw [h.nodes hv]

/-- The windows look at CODES behind the code table's validity (R47). -/
theorem SameObservable.shownCode (h : SameObservable s t) (i : Nat) : shownCode t i = shownCode s i := by
  cases hv : s.codesValid with
  | false => simp [Machine.shownCode, h.codesValid, hv]
  | true => rw [h.eq_of_codesValid hv]

theorem SameObservable.regValue (h : SameObservable s t) (r : Reg) : regValue r t = regValue r s := by
  have hidxI : t.idxI = s.idxI := by rw [h.1]; rfl
  have hidxJ : t.idxJ = s.idxJ := by rw [h.1]; rfl
  cases r
  case rootw => simp only [Machine.regValue, h.shownNode, h.rootIdx]
  case nodeW | nodeInfo | nodeChild => simp only [Machine.regValue, h.shownNode, hidxI]
  case codeLen | codeBit => simp only [Machine.regValue, h.shownCode, hidxI, hidxJ]
  all_goals
    rw [h.1]
    rfl

theorem SameObservable.memReadValue (h : SameObservable s t) (a : Offset) : memReadValue a t = memReadValue a s := by
  unfold Machine.memReadValue
  cases regAt a with
  | none => rfl
  | some r => exact h.regValue r

theorem SameObservable.memReadEffect (h : SameObservable s t) (a : Offset) :
    SameObservable (memReadEffect a s) (memReadEffect a t) := by
  unfold Machine.memReadEffect
  cases regAt a with
  | none => exact h
  | some r =>
    cases r
    case obitsPop => exact h.map (f := popBit) (fun _ _ _ => rfl) id id
    case osymsPop => exact h.map (f := popSym) (fun _ _ _ => rfl) id id
    all_goals exact h

/-! ### One step -/

theorem SameObservable.memWrite (h : SameObservable s t) (a : Offset) (v : Word) :
    ResultRel SameObservable (memWrite a v s) (memWrite a v t) := by
  unfold Machine.memWrite
  cases regAt a with
  | none => exact h
  | some r =>
    cases r
    case cmd => exact h.execWord v
    case arg => exact h.map (f := fun s => { s with arg := v }) (fun _ _ _ => rfl) id id
    case idx => exact h.map (f := fun s => { s with idx := v }) (fun _ _ _ => rfl) id id
    all_goals exact h

theorem SameObservable.runBusOp (h : SameObservable s t) (op : BusOp) :
    ResultRel SameObservable (runBusOp op s) (runBusOp op t) := by
  cases op with
  | read a =>
    simp only [Machine.runBusOp, h.memReadValue]
    exact (h.memReadEffect a).map (f := logRead (Machine.memReadValue a s)) (fun _ _ _ => rfl) id id
  | write a v => exact h.memWrite a v
  | hwReset abandoned => exact h.coreReset

end Alike

/-- Settles O59: taking the operation touches neither store, and every operation treats the two states alike. -/
theorem unobservableContentsStayUnobservable : Obligations.UnobservableContentsStayUnobservable := by
  intro s t h
  unfold step
  rw [h.pending]
  cases s.pending with
  | nil => exact h
  | cons op rest => exact (h.map (f := advance rest) (fun _ _ _ => rfl) id id).runBusOp op

end Sys2Proof.Machine
end

section
/-! PROOFS. One step and one program (10_state.md R25, R30, R31): what a step does to the host's side and to a recorded
error; within the invariant no command faults, so a program runs to its end (R265). -/

namespace Sys2Proof.Machine

/-! ### The host's side -/

theorem step_of_pending {s : State} {op : BusOp} {rest : List BusOp} (hp : s.pending = op :: rest) :
    step s = runBusOp op (advance rest s) := by
  simp only [step, hp]

theorem memWrite_of_cmd {a : Offset} {w : Word} {s : State} (hreg : regAt a = some .cmd) :
    memWrite a w s = execWord w s := by
  simp only [memWrite, hreg]

theorem execWord_of_decode {w : Word} {i : Instr} {s : State} (herr : s.err = false) (hdecode : decode w = .cmd i) :
    execWord w s = exec i s := by
  simp [execWord, herr, hdecode]

/-- Settles O7: the operation is taken, its address selects CMD, its word passes the checks of R80. -/
theorem stepRunsDecodedCommand : Obligations.StepRunsDecodedCommand := by
  intro s a w i rest hpending hreg herr hdecode
  calc step s = memWrite a w (advance rest s) := step_of_pending hpending
    _ = execWord w (advance rest s) := memWrite_of_cmd hreg
    _ = exec i (advance rest s) := execWord_of_decode herr hdecode

/-- Settles O9: a step with an operation pending is that operation's effect after pc has advanced. -/
theorem everyHostOperationAdvancesPcByOne : Obligations.EveryHostOperationAdvancesPcByOne := by
  intro s t hstep
  rcases step_next hstep with ⟨hidle, rfl⟩ | ⟨op, rest, hpending, ho⟩
  · exact ⟨by simp [hidle], fun _ => rfl⟩
  · obtain ⟨-, hrest, hpc⟩ := ho.host
    refine ⟨fun op' rest' h => ?_, by simp [hpending]⟩
    obtain ⟨-, rfl⟩ := List.cons.inj (hpending.symm.trans h)
    exact ⟨hpc, hrest⟩

/-! ### A recorded error -/

/-- A read changes no error register (R54). -/
theorem memReadEffect_error (a : Offset) (s : State) :
    (memReadEffect a s).err = s.err ∧ (memReadEffect a s).ecode = s.ecode ∧
      (memReadEffect a s).errcmd = s.errcmd ∧ (memReadEffect a s).errarg = s.errarg := by
  rcases memReadEffect_cases a s with ⟨-, h⟩ | ⟨-, h⟩ | ⟨-, -, h⟩ <;> rw [h] <;> exact ⟨rfl, rfl, rfl, rfl⟩

/-- Settles O21: while ERR = 1 a write to CMD is SRESET, CLRERR or discarded (R225), and of the other operations only the
reset touches the four registers. -/
theorem recordedErrorIsKeptUntilCleared : Obligations.RecordedErrorIsKeptUntilCleared := by
  intro s t herr hstep
  rcases step_next hstep with ⟨-, rfl⟩ | ⟨op, rest, hpending, ho⟩
  · exact .inl ⟨herr, rfl, rfl, rfl⟩
  cases op with
  | read a =>
    obtain rfl := ho
    obtain ⟨h1, h2, h3, h4⟩ := memReadEffect_error a (advance rest s)
    exact .inl ⟨h1.trans herr, h2, h3, h4⟩
  | hwReset abandoned =>
    obtain rfl := ho
    exact .inr ⟨rfl, rfl, rfl, rfl, .inl ⟨_, _, hpending⟩⟩
  | write a w =>
    rcases ho with ⟨hcmd, ho⟩ | ⟨-, rfl⟩ | ⟨-, rfl⟩ | ⟨-, -, -, rfl⟩
    · rcases ho with ⟨-, hw, rfl⟩ | ⟨-, hw, rfl⟩ | ⟨-, -, -, rfl⟩ | ⟨hok, -, -⟩ | ⟨hok, -⟩
      · exact .inr ⟨rfl, rfl, rfl, rfl, .inr ⟨_, _, _, hpending, hcmd, .inl hw⟩⟩
      · exact .inr ⟨rfl, rfl, rfl, rfl, .inr ⟨_, _, _, hpending, hcmd, .inr hw⟩⟩
      · exact .inl ⟨herr, rfl, rfl, rfl⟩
      · exact absurd (herr.symm.trans hok) (by decide)
      · exact absurd (herr.symm.trans hok) (by decide)
    · exact .inl ⟨herr, rfl, rfl, rfl⟩
    · exact .inl ⟨herr, rfl, rfl, rfl⟩
    · exact .inl ⟨herr, rfl, rfl, rfl⟩

/-! ### Completion -/

/-- GENCODES finds every node of a valid tree (R35, R140). -/
theorem Inv.execGencodes_completes {s : State} (h : Inv s) : ∃ t, execGencodes s = .next t := by
  unfold execGencodes
  split
  next hv =>
    obtain ⟨codes, hcodes, -⟩ := (h.shape hv).genCodes_spec
    exact ⟨_, by rw [hcodes]⟩
  next => exact ⟨_, rfl⟩

/-- ENC_SYM finds the code of every entry (R39, R160). -/
theorem Inv.execEncSym_completes {s : State} (h : Inv s) (sym : Sym) : ∃ t, execEncSym sym s = .next t := by
  unfold execEncSym
  split
  next hv =>
    cases hj : lookupSym sym s.ft with
    | none => exact ⟨_, rfl⟩
    | some j =>
      obtain ⟨hlt, -⟩ := lookupSym_some hj
      obtain ⟨code, hcode⟩ := h.code_at hv hlt
      simp only [hcode]
      split <;> exact ⟨_, rfl⟩
  next => exact ⟨_, rfl⟩

/-- DEC_BIT finds the pointer's node and its child (R181, R184). -/
theorem Inv.execDecBit_completes {s : State} (h : Inv s) (bv : BitVec 8) : ∃ t, execDecBit bv s = .next t := by
  unfold execDecBit
  split
  next hv =>
    cases bitOf bv with
    | none => exact ⟨_, rfl⟩
    | some b =>
      by_cases hn : s.n = 1
      · exact ⟨_, if_pos hn⟩
      · obtain ⟨c, nd, htarget⟩ := h.target hv hn b
        simp only [if_neg hn, htarget]
        cases nd with
        | leaf sym wt =>
          dsimp only
          split_ifs <;> exact ⟨_, rfl⟩
        | internal wt l r => exact ⟨_, rfl⟩
  next => exact ⟨_, rfl⟩

theorem Inv.exec_completes {s : State} (h : Inv s) (i : Instr) : ∃ t, Machine.exec i s = .next t := by
  cases i with
  | nop => exact ⟨_, rfl⟩
  | sreset => exact ⟨_, rfl⟩
  | clrerr => exact ⟨_, rfl⟩
  | ftClear => exact ⟨_, rfl⟩
  | ftAppend sym =>
    simp only [Machine.exec, execFtAppend]
    split_ifs <;> exact ⟨_, rfl⟩
  | build =>
    simp only [Machine.exec, execBuild]
    split_ifs <;> exact ⟨_, rfl⟩
  | gencodes => exact h.execGencodes_completes
  | encSym sym => exact h.execEncSym_completes sym
  | decBit bv => exact h.execDecBit_completes bv
  | decEnd =>
    simp only [Machine.exec, execDecEnd]
    split_ifs <;> exact ⟨_, rfl⟩
  | decRst =>
    simp only [Machine.exec, execDecRst]
    split_ifs <;> exact ⟨_, rfl⟩
  | fifoClr sel => exact ⟨_, rfl⟩

theorem Inv.execWord_completes {s : State} (h : Inv s) (w : Word) : ∃ t, execWord w s = .next t := by
  unfold execWord
  split_ifs
  · exact h.exec_completes .sreset
  · exact h.exec_completes .clrerr
  · exact ⟨_, rfl⟩
  · cases decode w with
    | illegal why => exact ⟨_, rfl⟩
    | cmd i => exact h.exec_completes i

theorem Inv.runBusOp_completes {s : State} (h : Inv s) (op : BusOp) : ∃ t, runBusOp op s = .next t := by
  cases op with
  | read a => exact ⟨_, rfl⟩
  | hwReset abandoned => exact ⟨_, rfl⟩
  | write a v =>
    simp only [runBusOp, memWrite]
    split
    · exact h.execWord_completes v
    · exact ⟨_, rfl⟩
    · exact ⟨_, rfl⟩
    · exact ⟨_, rfl⟩

/-- With an operation pending, a step runs it, and the invariant holds of what it leaves. -/
theorem Inv.step_cons {s : State} {op : BusOp} {rest : List BusOp} (h : Inv s) (hp : s.pending = op :: rest) :
    ∃ t, step s = .next t ∧ t.pending = rest ∧ t.pc = s.pc + 1 ∧ Inv t := by
  obtain ⟨t, ht⟩ := (h.advance (rest := rest)).runBusOp_completes op
  have hstep : step s = .next t := (step_of_pending hp).trans ht
  obtain ⟨hpc, hrest⟩ := (everyHostOperationAdvancesPcByOne s t hstep).1 op rest hp
  exact ⟨t, hstep, hrest, hpc, everyStepKeepsTheInvariant s t h hstep⟩

theorem run_succ_of_step {M : Host.Core} {k : Nat} {s t : M.State} (h : M.step s = .next t) :
    M.run (k + 1) s = M.run k t := by
  simp only [Host.Core.run, h]

/-- Settles O58: by induction on the operations pending, each of which one step takes. -/
theorem everyProgramRunsToItsEnd : Obligations.EveryProgramRunsToItsEnd := by
  intro s h
  generalize hops : s.pending = ops
  induction ops generalizing s with
  | nil => exact ⟨s, rfl, hops, rfl, h⟩
  | cons op rest ih =>
    obtain ⟨t, hstep, hrest, hpc, ht⟩ := h.step_cons hops
    obtain ⟨u, hrun, hnone, hcount, hu⟩ := ih t ht hrest
    refine ⟨u, ?_, hnone, ?_, hu⟩
    · exact (run_succ_of_step (M := core) hstep).trans hrun
    · rw [hcount, hpc, List.length_cons]
      omega

end Sys2Proof.Machine
end

section
/-! PROOFS. Which commands write which state element (10_state.md R23 to R42, 42_code_generator.md R145,
70_reset_and_hazards.md R264). -/

namespace Sys2Proof.Machine

/-- Settles O60: an error entry writes none of these elements, and each effect names what it writes. -/
theorem writersOfEachStateElement : Obligations.WritersOfEachStateElement := by
  intro i s t h
  refine ⟨exec_host h, ?_⟩
  rcases exec_next h with ⟨c, -, rfl⟩ | he
  · simp
  cases i with
  | nop | sreset | clrerr | ftClear | fifoClr sel =>
    obtain rfl := he
    simp
  | ftAppend sym =>
    obtain ⟨-, -, -, -, rfl⟩ := he
    simp
  | build =>
    obtain ⟨-, -, rfl⟩ := he
    simp
  | gencodes =>
    obtain ⟨-, codes, -, rfl⟩ := he
    simp
  | encSym sym =>
    obtain ⟨-, j, code, -, -, -, rfl⟩ := he
    simp
  | decBit bv =>
    obtain ⟨-, -, b, c, nd, -, -, ⟨sym, wt, -, -, rfl⟩ | ⟨wt, l, r, -, rfl⟩⟩ := he
    · simp
    · simp
  | decEnd =>
    obtain ⟨-, -, rfl⟩ := he
    simp
  | decRst =>
    obtain ⟨-, rfl⟩ := he
    simp

end Sys2Proof.Machine
end

section
/-! PROOFS. The registers as numbers (10_state.md R21 to R47): the fields of STATUS, the constants, the root registers,
the table, node and code windows; and what each reads after a reset (R48, R251). -/

namespace Sys2Proof.Machine

/-! ### Bus rules -/

/-- A write to a register other than CMD, ARG and IDX has no effect (R53). -/
theorem memWrite_of_readOnly {a : Offset} {r : Reg} {s : State} (hreg : regAt a = some r)
    (hr : r ≠ .cmd ∧ r ≠ .arg ∧ r ≠ .idx) (x : Word) : memWrite a x s = .next s := by
  obtain ⟨hcmd, harg, hidx⟩ := hr
  unfold memWrite
  split
  next h => exact absurd (Option.some.inj (hreg.symm.trans h)) hcmd
  next h => exact absurd (Option.some.inj (hreg.symm.trans h)) harg
  next h => exact absurd (Option.some.inj (hreg.symm.trans h)) hidx
  next => rfl

/-- A step leaves the parameters (R22). -/
theorem step_cfg {s t : State} (h : step s = .next t) : t.cfg = s.cfg := by
  rcases step_next h with ⟨-, rfl⟩ | ⟨op, rest, -, ho⟩
  · rfl
  · exact ho.host.1

/-! ### STATUS (R29) -/

theorem fields_of_statusSum {a b c d e f v : Nat}
    (hv : v = a * 2 ^ 10 + b * 2 ^ 9 + c * 2 ^ 8 + d * 2 ^ 4 + e * 2 ^ 3 + f) (ha : a < 2) (hb : b < 2) (hc : c < 2)
    (hd : d < 2 ^ 4) (he : e < 2) (hf : f < 2 ^ 3) :
    v % 2 ^ 3 = f ∧ v / 2 ^ 3 % 2 = e ∧ v / 2 ^ 4 % 2 ^ 4 = d ∧ v / 2 ^ 8 % 2 = c ∧ v / 2 ^ 9 % 2 = b ∧
      v / 2 ^ 10 % 2 = a ∧ v / 2 ^ 11 = 0 := by
  omega

theorem ite_one_zero_lt (p : Prop) [Decidable p] : (if p then 1 else 0) < 2 := by
  split <;> decide

/-- Each field of STATUS shows its element. -/
theorem status_fields (s : State) :
    s.status.toNat % 2 ^ 3 = s.phase.code.toNat ∧ s.status.toNat / 2 ^ 3 % 2 = (if s.err then 1 else 0) ∧
    s.status.toNat / 2 ^ 4 % 2 ^ 4 = s.ecode.code.toNat ∧
    s.status.toNat / 2 ^ 8 % 2 = (if s.decAtRoot then 1 else 0) ∧
    s.status.toNat / 2 ^ 9 % 2 = (if 0 < s.obits.length then 1 else 0) ∧
    s.status.toNat / 2 ^ 10 % 2 = (if 0 < s.osyms.length then 1 else 0) ∧ s.status.toNat / 2 ^ 11 = 0 :=
  fields_of_statusSum (status_toNat s) (ite_one_zero_lt _) (ite_one_zero_lt _) (ite_one_zero_lt _) s.ecode.code.isLt
    (ite_one_zero_lt _) s.phase.code.isLt

theorem State.decAtRoot_iff {s : State} :
    s.decAtRoot = true ↔ (s.phase = .built ∨ s.phase = .coded) ∧ s.decptr.toNat = 2 * s.n - 2 := by
  rw [State.decAtRoot, Bool.and_eq_true, State.treeValid_iff, decide_eq_true_iff, State.rootIdx]

/-- Settles O14: the fields are those of the sum, and PHASE and ECODE stand in them by their numbers (R27, R223). -/
theorem statusFields : Obligations.StatusFields := by
  intro s
  obtain ⟨hphase, herr, hecode, hroot, hobits, hosyms, hhigh⟩ := status_fields s
  refine ⟨hphase.trans ?_, herr, hecode.trans ?_, hroot.trans ?_, hobits, hosyms, hhigh, by decide, ?_, by decide⟩
  · cases s.phase <;> rfl
  · cases s.ecode <;> rfl
  · simp only [State.decAtRoot_iff]
  · exact memWrite_of_readOnly (r := .status) (by decide) (by decide)

/-! ### The constant registers (R21, R22) -/

/-- Settles O15: the parameters fit their registers (R6), and no step writes them. -/
theorem constantRegistersNeverChange : Obligations.ConstantRegistersNeverChange := by
  intro s hwf
  obtain ⟨-, hnmax, -, -, hobits, -, hosyms⟩ := Params.wf_bounds hwf
  refine ⟨rfl, ?_, Nat.mod_eq_of_lt hobits, Nat.mod_eq_of_lt hosyms, by decide, by decide, by decide, by decide, ?_⟩
  · rw [regValue, zext16_toNat, BitVec.toNat_ofNat]
    omega
  · intro t hstep r hr
    have hcfg := step_cfg hstep
    simp only [List.mem_cons, List.not_mem_nil, or_false] at hr
    rcases hr with rfl | rfl | rfl | rfl <;> simp only [regValue, hcfg]

/-! ### The views of NODES and CODES -/

theorem shownNode_of_valid {s : State} {i : Nat} (hv : s.treeValid = true) (hi : i ≤ s.rootIdx) :
    shownNode s i = s.nodes[i]? := by
  simp [shownNode, hv, hi]

theorem shownNode_eq_none {s : State} {i : Nat} (h : ¬(s.treeValid = true ∧ i ≤ s.rootIdx)) : shownNode s i = none := by
  unfold shownNode
  rw [if_neg]
  simpa using h

theorem shownCode_of_valid {s : State} {i : Nat} (hv : s.codesValid = true) (hi : i < s.n) :
    shownCode s i = s.codes[i]? := by
  simp [shownCode, hv, hi]

theorem shownCode_eq_none {s : State} {i : Nat} (h : ¬(s.codesValid = true ∧ i < s.n)) : shownCode s i = none := by
  unfold shownCode
  rw [if_neg]
  simpa using h

/-- A valid tree holds the nodes up to its root (R35). -/
theorem Inv.node_at {s : State} (h : Inv s) (hv : s.treeValid = true) {i : Nat} (hi : i ≤ s.rootIdx) :
    ∃ nd, s.nodes[i]? = some nd := by
  have hpos := (h.shape hv).pos
  have hlen := (h.shape hv).length_eq
  have hlt : i < s.nodes.length := by
    rw [State.rootIdx] at hi
    omega
  exact ⟨_, List.getElem?_eq_getElem hlt⟩

/-! ### ROOT and ROOTW (R37, R38) -/

theorem Inv.rootView_toNat {s : State} (h : Inv s) (hv : s.treeValid = true) :
    (rootView s).toNat = 2 ^ 31 + s.rootIdx := by
  rw [rootView, if_pos hv]
  simp only [toNat_append_add, BitVec.toNat_ofNat, State.rootPtr_toNat h.small]
  omega

/-- The root's weight is the total count (R127). -/
theorem Inv.root_weight {s : State} (h : Inv s) (hv : s.treeValid = true) {nd : Node}
    (hnd : s.nodes[s.rootIdx]? = some nd) : nd.weight.toNat = totalCount s.ft := by
  have htotal := (h.grown hv).total
  simpa [weightAt, hnd] using htotal

/-- Settles O16: a valid tree has its root at 2n−2, and the root's weight is the total count. -/
theorem rootRegisters : Obligations.RootRegisters := by
  intro s h
  refine ⟨fun hphase => ?_, fun hphase => ?_, by decide, by decide, fun x => ⟨?_, ?_⟩, by decide, by decide⟩
  · have hv := State.treeValid_iff.2 hphase
    obtain ⟨nd, hnd⟩ := h.node_at hv le_rfl
    have hrootw : regValue .rootw s = nd.weight := by
      rw [regValue, shownNode_of_valid hv le_rfl, hnd, weightView]
    have hroot := h.rootView_toNat hv
    refine ⟨hroot, fun hn => ?_, ⟨nd, hnd, hrootw⟩, ?_⟩
    · apply BitVec.eq_of_toNat_eq
      rw [regValue, hroot, State.rootIdx, hn]
      rfl
    · rw [hrootw, h.root_weight hv hnd]
  · have hv := State.treeValid_false_iff.2 hphase
    refine ⟨?_, ?_⟩
    · simp [regValue, rootView, hv]
    · rw [regValue, shownNode_eq_none (by simp [hv]), weightView]
  · exact memWrite_of_readOnly (r := .root) (by decide) (by decide) x
  · exact memWrite_of_readOnly (r := .rootw) (by decide) (by decide) x

/-! ### The node windows (R46) -/

/-- The three windows show the node that IDX[15:0] selects. -/
theorem nodeWindows_of_shown {s : State} {o : Option Node} (h : shownNode s s.idxI = o) :
    regValue .nodeW s = weightView o ∧ regValue .nodeInfo s = infoView o ∧ regValue .nodeChild s = childView o := by
  subst h
  exact ⟨rfl, rfl, rfl⟩

theorem infoView_leaf_toNat (sym : Sym) (wt : Word) : (infoView (some (.leaf sym wt))).toNat = 2 ^ 31 + sym.toNat := by
  simp only [infoView, toNat_append_add, BitVec.toNat_ofNat]
  omega

theorem childView_internal_toNat (wt : Word) (l r : NodeIdx) :
    (childView (some (.internal wt l r))).toNat = r.toNat * 2 ^ 16 + l.toNat :=
  toNat_append_add r l

/-- Settles O17: with a valid tree the selected node exists and is shown; otherwise nothing is. -/
theorem nodeWindows : Obligations.NodeWindows := by
  intro s h
  simp only [← idxI_eq, ← State.treeValid_iff]
  refine ⟨fun ⟨hv, hi⟩ => ?_, fun hno => ?_, by decide, by decide, by decide, fun a x ha => ?_⟩
  · have hshown := nodeWindows_of_shown (shownNode_of_valid hv hi)
    refine ⟨h.node_at hv hi, fun sym wt hnd => ?_, fun wt l r hnd => ?_⟩
    · rw [hnd] at hshown
      obtain ⟨hw, hinfo, hchild⟩ := hshown
      exact ⟨hw, hinfo ▸ infoView_leaf_toNat sym wt, hchild⟩
    · rw [hnd] at hshown
      obtain ⟨hw, hinfo, hchild⟩ := hshown
      exact ⟨hw, hinfo ▸ rfl, hchild ▸ childView_internal_toNat wt l r⟩
  · exact nodeWindows_of_shown (shownNode_eq_none hno)
  · simp only [List.mem_cons, List.not_mem_nil, or_false] at ha
    rcases ha with rfl | rfl | rfl
    · exact memWrite_of_readOnly (r := .nodeW) (by decide) (by decide) x
    · exact memWrite_of_readOnly (r := .nodeInfo) (by decide) (by decide) x
    · exact memWrite_of_readOnly (r := .nodeChild) (by decide) (by decide) x

/-! ### The table and code windows (R45, R47) -/

theorem ftWindows_of_entry {s : State} {e : Entry} (h : s.ft[s.idxI]? = some e) :
    (regValue .ftSym s).toNat = e.sym.toNat ∧ regValue .ftCnt s = e.cnt := by
  simp only [regValue, h, zext16_toNat, and_self]

theorem ftWindows_of_none {s : State} (h : s.n ≤ s.idxI) : regValue .ftSym s = 0#32 ∧ regValue .ftCnt s = 0#32 := by
  simp only [regValue, List.getElem?_eq_none h, and_self]

/-- The two windows show the code that IDX[15:0] selects, and of it the bit that IDX[31:16] selects. -/
theorem codeWindows_of_shown {s : State} {o : Option Code} (h : shownCode s s.idxI = o) :
    regValue .codeLen s = codeLenView o ∧ regValue .codeBit s = codeBitView o s.idxJ := by
  subst h
  exact ⟨rfl, rfl⟩

theorem codeLenView_toNat {c : Code} (h : c.length < 2 ^ 16) : (codeLenView (some c)).toNat = 2 ^ 31 + c.length := by
  simp only [codeLenView, toNat_append_add, BitVec.toNat_ofNat]
  omega

theorem codeBitView_toNat {code : Code} {j : Nat} {b : Bit} (h : code[j]? = some b) :
    (codeBitView (some code) j).toNat = 2 ^ 31 + (if b then 1 else 0) := by
  simp only [codeBitView, h]
  cases b <;> rfl

theorem codeBitView_beyond {c : Code} {j : Nat} (h : c.length ≤ j) : codeBitView (some c) j = 0#32 := by
  simp only [codeBitView, List.getElem?_eq_none h]

/-- The length of a code fits CODE_LEN (R129, R47). -/
theorem Inv.code_length_lt {s : State} (h : Inv s) (hv : s.codesValid = true) {i : Nat} {c : Code}
    (hc : s.codes[i]? = some c) : c.length < 2 ^ 16 := by
  have hshape := h.shape (State.treeValid_of_codesValid hv)
  have hpath := ((hshape.codes_path (h.codesDerived hv)).2 i c hc).2
  have hlt := hshape.path_length_lt hpath
  have hsmall := hshape.small
  omega

/-- Settles O18: the selected entry is shown while it is one, the selected code while there is one. -/
theorem tableAndCodeWindows : Obligations.TableAndCodeWindows := by
  intro s h
  simp only [← idxI_eq, ← idxJ_eq, ← State.codesValid_iff]
  refine ⟨fun e => ftWindows_of_entry, ftWindows_of_none, fun hv hi => ?_, fun hno => ?_, by decide, by decide,
    by decide, by decide, fun a x ha => ?_⟩
  · obtain ⟨code, hcode⟩ := h.code_at hv hi
    obtain ⟨hlen, hbit⟩ := codeWindows_of_shown ((shownCode_of_valid hv hi).trans hcode)
    refine ⟨code, hcode, ?_, fun b hb => ?_, fun hj => ?_⟩
    · rw [hlen, codeLenView_toNat (h.code_length_lt hv hcode)]
    · rw [hbit, codeBitView_toNat hb]
    · rw [hbit, codeBitView_beyond hj]
  · refine codeWindows_of_shown (o := none) (shownCode_eq_none ?_)
    rintro ⟨hv, hi⟩
    rcases hno with hno | hno
    · exact hno (State.codesValid_iff.1 hv)
    · omega
  · simp only [List.mem_cons, List.not_mem_nil, or_false] at ha
    rcases ha with rfl | rfl | rfl | rfl
    · exact memWrite_of_readOnly (r := .ftSym) (by decide) (by decide) x
    · exact memWrite_of_readOnly (r := .ftCnt) (by decide) (by decide) x
    · exact memWrite_of_readOnly (r := .codeLen) (by decide) (by decide) x
    · exact memWrite_of_readOnly (r := .codeBit) (by decide) (by decide) x

/-! ### After a reset (R48, R251) -/

theorem status_coreReset (s : State) : (coreReset s).status = 0#32 := by
  apply BitVec.eq_of_toNat_eq
  rw [status_toNat]
  simp [State.decAtRoot, ECode.code, Phase.code]

/-- Settles O25: SRESET is the core's reset. -/
theorem softResetValues : Obligations.SoftResetValues := by
  intro s
  refine ⟨rfl, by decide, fun t ht => ?_⟩
  cases ht
  exact status_coreReset s

/-- A state after a reset or at power-up is one that a reset leaves as it is. -/
theorem coreReset_eq_self {t : State} (h : (∃ s, exec .sreset s = .next t) ∨ ∃ p, t = State.resetFor p) :
    coreReset t = t := by
  rcases h with ⟨s, hs⟩ | ⟨p, rfl⟩
  · cases hs
    rfl
  · rfl

/-- Settles O27: in such a state nothing is held that a register other than ID and CFG shows. -/
theorem registersReadAfterReset : Obligations.RegistersReadAfterReset := by
  intro t h
  rw [← coreReset_eq_self h]
  refine ⟨fun r hr => ?_, rfl⟩
  cases r
  case ident | cfgNmax | cfgObits | cfgOsyms => simp at hr
  case status => exact status_coreReset t
  case decptr => exact (by decide : zext16 0#16 = 0#32)
  all_goals rfl

end Sys2Proof.Machine
end

section
/-! PROOFS. The host's register interface (20_memory.md): the register map (R51, R52, R55), what a write (R53), a read (R54)
and a pop (R57, R58) does as a step, that every step completes (R60), and the words of the command lines (30_encoding.md R91). -/

namespace Sys2Proof.Machine

/-! ### Completion (R60, R222) -/

theorem step_of_idle {s : State} (hp : s.pending = []) : step s = .next s := by
  simp only [step, hp]

/-- Settles O57: an idle step keeps the state, and within the invariant every host operation completes. -/
theorem everyStepCompletes : Obligations.EveryStepCompletes := by
  intro s h
  cases hp : s.pending with
  | nil => exact ⟨s, step_of_idle hp⟩
  | cons op rest =>
    obtain ⟨t, hstep, -⟩ := h.step_cons hp
    exact ⟨t, hstep⟩

/-! ### The assembler (30_encoding.md R91) -/

theorem assemble_of_not_wf {l : AsmLine} (h : l.wf = false) : assemble l = none := by
  simp [assemble, h]

theorem assemble_ftAppend {sym : Nat} (h : sym ≤ 65535) :
    assemble (.ftAppend sym) = some (cmdOp (.ftAppend (BitVec.ofNat 16 sym))) :=
  if_pos (decide_eq_true h)

theorem assemble_encSym {sym : Nat} (h : sym ≤ 65535) :
    assemble (.encSym sym) = some (cmdOp (.encSym (BitVec.ofNat 16 sym))) :=
  if_pos (decide_eq_true h)

theorem assemble_decBit {bv : Nat} (h : bv ≤ 255) :
    assemble (.decBit bv) = some (cmdOp (.decBit (BitVec.ofNat 8 bv))) :=
  if_pos (decide_eq_true h)

theorem assemble_fifoClr {sel : Nat} (h : sel ≤ 3) :
    assemble (.fifoClr sel) = some (cmdOp (.fifoClr (BitVec.ofNat 2 sel))) :=
  if_pos (decide_eq_true h)

theorem assemble_wr {r : Reg} {v : Nat} (h : v < 2 ^ 32) :
    assemble (.wr r v) = some (.write (regOffset r) (BitVec.ofNat 32 v)) :=
  if_pos (decide_eq_true h)

theorem cmdOp_eq (i : Instr) : cmdOp i = .write 0x010#12 (encode i) := rfl

theorem wordS_ofNat (op : BitVec 8) {sym : Nat} (h : sym ≤ 65535) :
    wordS op (BitVec.ofNat 16 sym) = BitVec.ofNat 32 (op.toNat * 2 ^ 24 + sym) := by
  apply BitVec.eq_of_toNat_eq
  rw [wordS_toNat, BitVec.toNat_ofNat, BitVec.toNat_ofNat]
  omega

theorem wordB_ofNat (op : BitVec 8) {bv : Nat} (h : bv ≤ 255) :
    wordB op (BitVec.ofNat 8 bv) = BitVec.ofNat 32 (op.toNat * 2 ^ 24 + bv) := by
  apply BitVec.eq_of_toNat_eq
  rw [wordB_toNat, BitVec.toNat_ofNat, BitVec.toNat_ofNat]
  omega

theorem wordM_ofNat (op : BitVec 8) {sel : Nat} (h : sel ≤ 3) :
    wordM op (BitVec.ofNat 2 sel) = BitVec.ofNat 32 (op.toNat * 2 ^ 24 + sel) := by
  apply BitVec.eq_of_toNat_eq
  rw [wordM_toNat, BitVec.toNat_ofNat, BitVec.toNat_ofNat]
  omega

/-- Settles O6: an operand in range goes into its field whole; a line out of range is not well-formed. -/
theorem assemblerWordsAndRanges : Obligations.AssemblerWordsAndRanges := by
  refine ⟨fun sym h => ⟨?_, ?_⟩, fun bv h => ?_, fun sel h => ?_, fun v h => ⟨?_, ?_⟩, fun v h => ?_, fun v h => ?_,
    fun r v h => assemble_wr h, fun r e => rfl, by decide, by decide, by decide, by decide, by decide, by decide,
    by decide, by decide⟩
  · rw [assemble_ftAppend h, cmdOp_eq, encode, wordS_ofNat 0x04#8 h]
    rfl
  · rw [assemble_encSym h, cmdOp_eq, encode, wordS_ofNat 0x07#8 h]
    rfl
  · rw [assemble_decBit h, cmdOp_eq, encode, wordB_ofNat 0x08#8 h]
    rfl
  · rw [assemble_fifoClr h, cmdOp_eq, encode, wordM_ofNat 0x0B#8 h]
    rfl
  all_goals
    apply assemble_of_not_wf
    simpa [AsmLine.wf] using h

/-! ### The register map (R51, R52, R55) -/

/-- Only the word index of an offset matters (R52). -/
theorem regAt_congr {a b : Offset} (h : a.toNat / 4 = b.toNat / 4) : regAt a = regAt b := by
  rw [regAt_eq, regAt_eq, h]

theorem regAt_regOffset (r : Reg) : regAt (regOffset r) = some r := by
  cases r <;> rfl

theorem regOffset_aligned (r : Reg) : (regOffset r).toNat / 4 * 4 = (regOffset r).toNat := by
  cases r <;> rfl

/-- An offset is reserved exactly when it lies after the last register (R55). -/
theorem regAt_eq_none_iff {a : Offset} : regAt a = none ↔ 0x064 ≤ a.toNat := by
  rw [regAt_eq, List.getElem?_eq_none_iff, show regList.length = 25 from rfl]
  omega

/-- An offset selects a register exactly when it is the register's own up to the two low bits: no register stands twice in
the map. -/
theorem regAt_eq_some_iff {a : Offset} {r : Reg} : regAt a = some r ↔ a.toNat / 4 * 4 = (regOffset r).toNat := by
  have haligned := regOffset_aligned r
  constructor
  · intro h
    have hlt : a.toNat / 4 < regList.length := by
      rw [regAt_eq] at h
      exact (List.getElem?_eq_some_iff.1 h).1
    have hget : regList[a.toNat / 4]? = regList[(regOffset r).toNat / 4]? := by
      rw [← regAt_eq, ← regAt_eq, h, regAt_regOffset]
    rw [(List.getElem?_inj hlt (by decide)).1 hget, haligned]
  · intro h
    rw [← regAt_regOffset r]
    exact regAt_congr (by omega)

/-- Settles O13: the rows are the list of registers in offset order, indexed by bits 11:2 of the offset. -/
theorem registerMapAndIgnoredAddressBits : Obligations.RegisterMapAndIgnoredAddressBits :=
  ⟨by decide, regAt_regOffset, fun _ _ => regAt_congr, fun _ => regAt_eq_none_iff, by decide, by decide, by decide,
    by decide⟩

/-! ### Writes (R53) -/

theorem memWrite_of_arg {a : Offset} {v : Word} {s : State} (hreg : regAt a = some .arg) :
    memWrite a v s = .next { s with arg := v } := by
  simp only [memWrite, hreg]

theorem memWrite_of_idx {a : Offset} {v : Word} {s : State} (hreg : regAt a = some .idx) :
    memWrite a v s = .next { s with idx := v } := by
  simp only [memWrite, hreg]

/-- A write that selects none of the three writable registers, a reserved offset included, has no effect. -/
theorem memWrite_of_ignored {a : Offset} {v : Word} {s : State} (hcmd : regAt a ≠ some .cmd)
    (harg : regAt a ≠ some .arg) (hidx : regAt a ≠ some .idx) : memWrite a v s = .next s := by
  cases hreg : regAt a with
  | none => simp only [memWrite, hreg]
  | some r =>
    rw [hreg] at hcmd harg hidx
    exact memWrite_of_readOnly hreg ⟨mt (congrArg some) hcmd, mt (congrArg some) harg, mt (congrArg some) hidx⟩ v

/-- Settles O10: the operation is taken, and its offset, rounded down to a word, says which register is written. -/
theorem hostWriteEffects : Obligations.HostWriteEffects := by
  intro s a v rest hp
  have hstep : step s = memWrite a v (advance rest s) := step_of_pending hp
  rw [hstep]
  refine ⟨fun h => ?_, fun h => ?_, fun h => ?_, fun hcmd harg hidx => ?_⟩
  · exact memWrite_of_cmd (regAt_eq_some_iff.2 h)
  · exact memWrite_of_arg (regAt_eq_some_iff.2 h)
  · exact memWrite_of_idx (regAt_eq_some_iff.2 h)
  · exact memWrite_of_ignored (mt regAt_eq_some_iff.1 hcmd) (mt regAt_eq_some_iff.1 harg) (mt regAt_eq_some_iff.1 hidx)

/-! ### Reads (R54) -/

theorem memReadValue_of_regAt {a : Offset} {r : Reg} {s : State} (hreg : regAt a = some r) :
    memReadValue a s = regValue r s := by
  simp only [memReadValue, hreg]

/-- CMD and the reserved offsets read 0 (R51, R55). -/
theorem memReadValue_of_cmd_or_reserved {a : Offset} {s : State} (h : regAt a = some .cmd ∨ regAt a = none) :
    memReadValue a s = 0#32 := by
  rcases h with h | h <;> simp only [memReadValue, h, regValue]

/-- A register shows the core, not the host's side: taking the operation changes no value. -/
theorem regValue_advance (r : Reg) (rest : List BusOp) (s : State) : regValue r (advance rest s) = regValue r s := by
  cases r <;> rfl

theorem memReadValue_advance (a : Offset) (rest : List BusOp) (s : State) :
    memReadValue a (advance rest s) = memReadValue a s := by
  simp only [memReadValue, regValue_advance]

theorem memReadEffect_reads (a : Offset) (s : State) : (memReadEffect a s).reads = s.reads := by
  rcases memReadEffect_cases a s with ⟨-, h⟩ | ⟨-, h⟩ | ⟨-, -, h⟩ <;> rw [h] <;> rfl

/-- A step with a read pending logs the value the offset shows now. -/
theorem step_of_read {s : State} {a : Offset} {rest : List BusOp} (hp : s.pending = .read a :: rest) :
    step s = .next (logRead (memReadValue a s) (memReadEffect a (advance rest s))) := by
  rw [step_of_pending hp, ← memReadValue_advance a rest s]
  rfl

/-- Pops apart, the value joins the host's observation and nothing else changes. -/
theorem step_of_plain_read {s : State} {a : Offset} {rest : List BusOp} (hp : s.pending = .read a :: rest)
    (hbits : regAt a ≠ some .obitsPop) (hsyms : regAt a ≠ some .osymsPop) :
    step s = .next { s with pending := rest, pc := s.pc + 1, reads := s.reads ++ [memReadValue a s] } := by
  rw [step_of_read hp]
  rcases memReadEffect_cases a (advance rest s) with ⟨h, -⟩ | ⟨h, -⟩ | ⟨-, -, h⟩
  · exact absurd h hbits
  · exact absurd h hsyms
  · rw [h]
    rfl

/-- The three counts fit their registers (R6, R32, R41, R42). -/
theorem Inv.counts_toNat {s : State} (h : Inv s) :
    (regValue .nent s).toNat = s.ft.length ∧ (regValue .obitsCnt s).toNat = s.obits.length ∧
      (regValue .osymsCnt s).toNat = s.osyms.length := by
  obtain ⟨-, -, -, -, hobitsCap, -, hosymsCap⟩ := Params.wf_bounds h.cfgLegal
  have hsmall := h.small
  have hbits := h.bitsFit
  have hsyms := h.symsFit
  exact ⟨Nat.mod_eq_of_lt (by rw [State.n]; omega), Nat.mod_eq_of_lt (by omega), Nat.mod_eq_of_lt (by omega)⟩

/-- Settles O11: a step with a read pending logs the value and has the read's effect, which only a pop has. -/
theorem readsAreFreeOfSideEffects : Obligations.ReadsAreFreeOfSideEffects := by
  refine ⟨fun s a rest hp => ⟨fun r hreg => ?_, fun r hreg hbits hsyms => ?_, fun ha => ?_⟩, fun s => ?_⟩
  · refine ⟨_, step_of_read hp, ?_⟩
    rw [logRead_reads, memReadEffect_reads, memReadValue_of_regAt hreg, advance_reads]
  · rw [← memReadValue_of_regAt hreg]
    refine step_of_plain_read hp ?_ ?_ <;> rw [hreg]
    · exact mt Option.some.inj hbits
    · exact mt Option.some.inj hsyms
  · have hreg : regAt a = some .cmd ∨ regAt a = none :=
      ha.imp (fun h => regAt_eq_some_iff.2 h) regAt_eq_none_iff.2
    rw [← memReadValue_of_cmd_or_reserved (s := s) hreg]
    refine step_of_plain_read hp ?_ ?_ <;> rcases hreg with hreg | hreg <;> simp [hreg]
  · exact ⟨rfl, rfl, rfl, rfl, zext16_toNat s.decptr, Inv.counts_toNat⟩

/-! ### Pops (R57, R58) -/

theorem bitPopView_cons (b : Bit) (bs : List Bit) :
    bitPopView (b :: bs) = BitVec.ofNat 32 (2 ^ 31 + (if b then 1 else 0)) := by
  cases b <;> rfl

theorem bitPopView_of_nil {bits : List Bit} (h : bits = []) : bitPopView bits = 0#32 := by
  rw [h, bitPopView]

theorem symPopView_of_nil {syms : List Sym} (h : syms = []) : symPopView syms = 0#32 := by
  rw [h, symPopView]

theorem symPopView_cons (x : Sym) (xs : List Sym) : symPopView (x :: xs) = BitVec.ofNat 32 (2 ^ 31 + x.toNat) := by
  apply BitVec.eq_of_toNat_eq
  simp only [symPopView, toNat_append_add, BitVec.toNat_ofNat]
  omega

theorem popBit_of_cons {s : State} {b : Bit} {bs : List Bit} (h : s.obits = b :: bs) :
    popBit s = { s with obits := bs } := by
  simp only [popBit, h, List.tail_cons]

theorem popSym_of_cons {s : State} {x : Sym} {xs : List Sym} (h : s.osyms = x :: xs) :
    popSym s = { s with osyms := xs } := by
  simp only [popSym, h, List.tail_cons]

/-- Popping an empty FIFO changes nothing. -/
theorem popBit_of_nil {s : State} (h : s.obits = []) : popBit s = s := by
  rw [popBit, h, List.tail_nil, ← h]

theorem popSym_of_nil {s : State} (h : s.osyms = []) : popSym s = s := by
  rw [popSym, h, List.tail_nil, ← h]

/-- A read that selects a register logs its value and has its effect. -/
theorem step_of_read_regAt {s : State} {a : Offset} {r : Reg} {rest : List BusOp} (hp : s.pending = .read a :: rest)
    (hreg : regAt a = some r) : step s = .next (logRead (regValue r s) (readEffect r (advance rest s))) := by
  rw [step_of_read hp, memReadValue_of_regAt hreg, memReadEffect, hreg]

/-- Settles O12: the value logged is the front of the FIFO before the pop, and the pop leaves the FIFO's tail. -/
theorem popsRemoveTheFront : Obligations.PopsRemoveTheFront := by
  intro s a rest hp
  refine ⟨fun hreg => ?_, fun hreg => ?_⟩
  · rw [step_of_read_regAt hp hreg, regValue, readEffect]
    refine ⟨fun b bs h => ?_, fun h => ?_⟩
    · rw [h, bitPopView_cons, popBit_of_cons (s := advance rest s) h]
      rfl
    · rw [popBit_of_nil (s := advance rest s) h, bitPopView_of_nil h]
      rfl
  · rw [step_of_read_regAt hp hreg, regValue, readEffect]
    refine ⟨fun x xs h => ?_, fun h => ?_⟩
    · rw [h, symPopView_cons, popSym_of_cons (s := advance rest s) h]
      rfl
    · rw [popSym_of_nil (s := advance rest s) h, symPopView_of_nil h]
      rfl

end Sys2Proof.Machine
end

section
/-! PROOFS. The encoding (30_encoding.md R80 to R91): encoding and decoding undo each other, the decoder agrees with the
opcode map for every word, and which words are illegal and what executing one does. -/

namespace Sys2Proof

/-! ### The words of a format (R83 to R86) -/

/-- The format of a command (R88). -/
def Instr.format : Instr → Format
  | .ftAppend _ | .encSym _ => .formS
  | .decBit _ => .formB
  | .fifoClr _ => .formM
  | .nop | .sreset | .clrerr | .ftClear | .build | .gencodes | .decEnd | .decRst => .formN

/-- The values of OP whose commands have the format (R88). -/
def Format.ops : Format → List Nat
  | .formN => [0, 1, 2, 3, 5, 6, 9, 10]
  | .formS => [4, 7]
  | .formB => [8]
  | .formM => [11]

/-- A word with the bits that the format reserves cleared: OP and the operand field alone. -/
def Format.fieldsOnly (w : Word) : Format → Word
  | .formN => wordN (opField w)
  | .formS => wordS (opField w) (symField w)
  | .formB => wordB (opField w) (bvField w)
  | .formM => wordM (opField w) (selField w)

theorem Format.fieldsOnly_of_clear {w : Word} {f : Format} (h : w &&& f.rsv = 0#32) : f.fieldsOnly w = w := by
  cases f with
  | formN => simpa [fieldsOnly] using wordN_of_clear rfl h (opField w).isLt
  | formS => simpa [fieldsOnly] using wordS_of_clear rfl h (opField w).isLt
  | formB => simpa [fieldsOnly] using wordB_of_clear rfl h (opField w).isLt
  | formM => simpa [fieldsOnly] using wordM_of_clear rfl h (opField w).isLt

/-- No format reserves a bit of OP. -/
theorem wordN_and_rsv (op : BitVec 8) (f : Format) : wordN op &&& f.rsv = 0#32 := by
  cases f with
  | formN => rw [rsvN_clear, wordN_toNat]; omega
  | formS => rw [rsvS_clear, wordN_toNat]; omega
  | formB => rw [rsvB_clear, wordN_toNat]; omega
  | formM => rw [rsvM_clear, wordN_toNat]; omega

theorem wordS_and_rsv (op : BitVec 8) (sym : Sym) : wordS op sym &&& Format.formS.rsv = 0#32 := by
  have := sym.isLt
  rw [rsvS_clear, wordS_toNat]
  omega

theorem wordB_and_rsv (op : BitVec 8) (bv : BitVec 8) : wordB op bv &&& Format.formB.rsv = 0#32 := by
  have := bv.isLt
  rw [rsvB_clear, wordB_toNat]
  omega

theorem wordM_and_rsv (op : BitVec 8) (sel : BitVec 2) : wordM op sel &&& Format.formM.rsv = 0#32 := by
  have := sel.isLt
  rw [rsvM_clear, wordM_toNat]
  omega

/-! ### What OP selects, and the decoder's two answers (R88, R89) -/

theorem opField_of_toNat {w : Word} {n : Nat} (h : (opField w).toNat = n) : opField w = BitVec.ofNat 8 n := by
  rw [← h, BitVec.ofNat_toNat, BitVec.setWidth_eq]

theorem commandOf_encode (i : Instr) : commandOf (encode i) = some (i.format, i) := by
  cases i <;> simp [commandOf, encode, Instr.format]

theorem encode_and_rsv (i : Instr) : encode i &&& i.format.rsv = 0#32 := by
  cases i with
  | ftAppend sym | encSym sym => exact wordS_and_rsv _ sym
  | decBit bv => exact wordB_and_rsv _ bv
  | fifoClr sel => exact wordM_and_rsv _ sel
  | nop | sreset | clrerr | ftClear | build | gencodes | decEnd | decRst => exact wordN_and_rsv _ .formN

/-- The command that OP selects has a format that OP belongs to, and its word is made of the fields that the format reads. -/
theorem commandOf_some {w : Word} {f : Format} {i : Instr} (h : commandOf w = some (f, i)) :
    (opField w).toNat ∈ f.ops ∧ encode i = f.fieldsOnly w := by
  unfold commandOf at h
  split at h
  case h_13 => cases h
  all_goals
    next ho =>
      cases h
      simp [encode, Format.ops, Format.fieldsOnly, opField_of_toNat ho]

theorem commandOf_eq_none {w : Word} : commandOf w = none ↔ 12 ≤ (opField w).toNat := by
  unfold commandOf
  split
  case h_13 => simp only [imp_false, true_iff] at *; omega
  all_goals simp [*]

theorem decode_of_commandOf {w : Word} {f : Format} {i : Instr} (h : commandOf w = some (f, i))
    (hclear : w &&& f.rsv = 0#32) : decode w = .cmd i := by
  simp [decode, h, hclear]

theorem decode_illegal_of_none {w : Word} (h : commandOf w = none) : decode w = .illegal .unassignedOp := by
  simp only [decode, h]

theorem decode_illegal_iff_of_commandOf {w : Word} {f : Format} {i : Instr} (h : commandOf w = some (f, i)) :
    (∃ why, decode w = .illegal why) ↔ w &&& f.rsv ≠ 0#32 := by
  by_cases hclear : w &&& f.rsv = 0#32
  · simp [decode_of_commandOf h hclear, hclear]
  · simp [decode, h, hclear]

/-! ### The round trip -/

/-- Settles O1: a command's word selects that command and leaves the bits its format reserves clear. -/
theorem decodeEncodeRoundTrip : Obligations.DecodeEncodeRoundTrip :=
  fun i => decode_of_commandOf (commandOf_encode i) (encode_and_rsv i)

/-- Settles O2: the command's word has the fields of the decoded word, which has no other bits set. -/
theorem encodeOfDecodedWord : Obligations.EncodeOfDecodedWord := by
  intro w i h
  obtain ⟨f, hcommand, hclear⟩ := decode_cases h
  obtain ⟨-, hword⟩ := commandOf_some hcommand
  exact hword.trans (Format.fieldsOnly_of_clear hclear)

/-- Settles O4: each legal word is its command's, so the round trip decodes it; the two illegal ones are run. -/
theorem sampleWordsDecode : Obligations.SampleWordsDecode :=
  ⟨decodeEncodeRoundTrip .nop, decodeEncodeRoundTrip .sreset, decodeEncodeRoundTrip .clrerr,
    decodeEncodeRoundTrip .ftClear, decodeEncodeRoundTrip (.ftAppend 1#16), decodeEncodeRoundTrip .build,
    decodeEncodeRoundTrip .gencodes, decodeEncodeRoundTrip (.encSym 0xFFFF#16), decodeEncodeRoundTrip (.decBit 0xFF#8),
    decodeEncodeRoundTrip .decEnd, decodeEncodeRoundTrip .decRst, decodeEncodeRoundTrip (.fifoClr 2#2),
    by decide, by decide⟩

/-! ### The opcode map (R88) -/

theorem opField_and (v w : Word) : opField (v &&& w) = opField v &&& opField w :=
  BitVec.extractLsb'_and

theorem and_opMask (w : Word) : w &&& wordN 0xFF#8 = wordN (opField w) := by
  refine Laws.OpcodeRow.match_of_low 24 (by omega) rfl ?_
  rw [wordN_toNat, opField_toNat]

/-- Under the mask of OP and a format's reserved bits a word shows OP alone exactly when no reserved bit is set. -/
theorem and_rowMask_eq_iff {w : Word} {f : Format} :
    w &&& (wordN 0xFF#8 ||| f.rsv) = wordN (opField w) ↔ w &&& f.rsv = 0#32 := by
  constructor
  · intro h
    calc w &&& f.rsv = w &&& (wordN 0xFF#8 ||| f.rsv) &&& f.rsv := by
          rw [BitVec.and_assoc, show (wordN 0xFF#8 ||| f.rsv) &&& f.rsv = f.rsv by cases f <;> decide]
      _ = 0#32 := by rw [h, wordN_and_rsv]
  · intro h
    rw [BitVec.and_or_distrib_left, and_opMask, h, BitVec.or_zero]

/-- The command that OP selects has a row in the map: its mask is OP and the reserved bits of its format. -/
theorem commandOf_row {w : Word} {f : Format} {i : Instr} (h : commandOf w = some (f, i)) :
    ∃ r ∈ opcodeMap, r.mnemonic = i.mnemonic ∧ r.mask = wordN 0xFF#8 ||| f.rsv ∧ r.matchBits = wordN (opField w) := by
  unfold commandOf at h
  split at h
  case h_13 => cases h
  all_goals
    next ho =>
      cases h
      rw [opField_of_toNat ho]
      refine ⟨⟨_, wordN _, wordN 0xFF#8 ||| _⟩, ?_, rfl, rfl, rfl⟩
      decide

/-- Every row of the map fixes the whole of OP, at an assigned value. -/
theorem opcodeMap_op : ∀ r ∈ opcodeMap, opField r.mask = 0xFF#8 ∧ (opField r.matchBits).toNat < 12 ∧
    wordN (opField r.matchBits) = r.matchBits := by decide

/-- No two rows share a mnemonic or a match. -/
theorem opcodeMap_unique : ∀ r ∈ opcodeMap, ∀ r' ∈ opcodeMap,
    r.mnemonic = r'.mnemonic ∨ r.matchBits = r'.matchBits → r = r' := by decide

/-- A word meets a row exactly when it decodes to a command of that row. -/
theorem hits_iff_decode {w : Word} {r : OpRow} (hr : r ∈ opcodeMap) :
    r.hits w = true ↔ ∃ i, decode w = .cmd i ∧ i.mnemonic = r.mnemonic := by
  rw [OpRow.hits, beq_iff_eq]
  constructor
  · intro hmatch
    obtain ⟨hmask, hlt, hrow⟩ := opcodeMap_op r hr
    have hop : opField w = opField r.matchBits := by
      rw [← hmatch, opField_and, hmask]
      exact BitVec.and_allOnes.symm
    cases hcommand : commandOf w with
    | none =>
      rw [commandOf_eq_none, hop] at hcommand
      omega
    | some p =>
      obtain ⟨f, i⟩ := p
      obtain ⟨r', hr', hmnemonic, hmask', hmatch'⟩ := commandOf_row hcommand
      obtain rfl := opcodeMap_unique r hr r' hr' (.inr (by rw [hmatch', hop, hrow]))
      rw [hmask', hmatch', and_rowMask_eq_iff] at hmatch
      exact ⟨i, decode_of_commandOf hcommand hmatch, hmnemonic.symm⟩
  · rintro ⟨i, hdecode, hmnemonic⟩
    obtain ⟨f, hcommand, hclear⟩ := decode_cases hdecode
    obtain ⟨r', hr', hmnemonic', hmask, hmatch⟩ := commandOf_row hcommand
    obtain rfl := opcodeMap_unique r hr r' hr' (.inl (by rw [hmnemonic', hmnemonic]))
    rw [hmask, hmatch, and_rowMask_eq_iff]
    exact hclear

/-- The rows with a command's mnemonic are that one row. -/
theorem filter_mnemonic (i : Instr) :
    (opcodeMap.filter fun r => i.mnemonic == r.mnemonic).map OpRow.mnemonic = [i.mnemonic] := by
  cases i <;> rfl

theorem symField_of_decode {w : Word} {sym : Sym}
    (h : decode w = .cmd (.ftAppend sym) ∨ decode w = .cmd (.encSym sym)) : sym = symField w := by
  rcases h with h | h <;> rw [← encodeOfDecodedWord w _ h, encode, symField_wordS]

/-- Settles O3: the rows a word meets are those with the mnemonic of the command it decodes to; the operand fields are the
word's own, because the word is the command's encoding. -/
theorem decoderFollowsOpcodeMap : Obligations.DecoderFollowsOpcodeMap := by
  refine fun w => ⟨?_, fun sym h => ?_, fun bv h => ?_, fun sel h => ?_⟩
  · cases hdecode : decode w with
    | illegal why =>
      have hnone : ∀ r ∈ opcodeMap, ¬ r.hits w = true := fun r hr => by simp [hits_iff_decode hr, hdecode]
      rw [List.filter_eq_nil_iff.2 hnone, List.map_nil]
    | cmd i =>
      have hrows : ∀ r ∈ opcodeMap, r.hits w = (i.mnemonic == r.mnemonic) := fun r hr => by
        rw [Bool.eq_iff_iff, hits_iff_decode hr, hdecode, beq_iff_eq]
        simp
      rw [List.filter_congr hrows, filter_mnemonic]
  · rw [symField_of_decode h, symField_toNat]
  · rw [← bvField_toNat, ← encodeOfDecodedWord w _ h, encode, bvField_wordB]
  · rw [← selField_toNat, ← encodeOfDecodedWord w _ h, encode, selField_wordM]

/-! ### Illegal words (R89) -/

/-- OP is unassigned, or a bit that the format of its command reserves is set. -/
def IllegalWord (w : Word) : Prop :=
  let op := w.toNat / 2 ^ 24
  12 ≤ op ∨ (op ∈ [0, 1, 2, 3, 5, 6, 9, 10] ∧ w.toNat % 2 ^ 24 ≠ 0) ∨
    (op ∈ [4, 7] ∧ w.toNat / 2 ^ 16 % 2 ^ 8 ≠ 0) ∨ (op = 8 ∧ w.toNat / 2 ^ 8 % 2 ^ 16 ≠ 0) ∨
    (op = 11 ∧ w.toNat / 2 ^ 2 % 2 ^ 22 ≠ 0)

theorem illegalWord_iff_decode {w : Word} : IllegalWord w ↔ ∃ why, decode w = .illegal why := by
  have hop := opField_toNat w
  cases hcommand : commandOf w with
  | none =>
    have hunassigned := commandOf_eq_none.1 hcommand
    exact iff_of_true (.inl (hop ▸ hunassigned)) ⟨_, decode_illegal_of_none hcommand⟩
  | some p =>
    obtain ⟨f, i⟩ := p
    obtain ⟨hmem, -⟩ := commandOf_some hcommand
    rw [decode_illegal_iff_of_commandOf hcommand, IllegalWord, ← hop]
    cases f <;>
      simp only [Format.ops, List.mem_cons, List.not_mem_nil, or_false, ne_eq, rsvN_clear, rsvS_clear, rsvB_clear,
        rsvM_clear] at hmem ⊢ <;>
      omega

end Sys2Proof

namespace Sys2Proof.Machine

theorem execWord_of_illegal {w : Word} {why : Illegal} {s : State} (herr : s.err = false)
    (hdecode : decode w = .illegal why) : execWord w s = .next (errorEntry .illegalCommand w s) := by
  simp [execWord, herr, hdecode]

/-- While an error is recorded, a word other than SRESET's and CLRERR's is discarded (R225). -/
theorem execWord_of_discarded {w : Word} {s : State} (herr : s.err = true) (hsreset : w ≠ sresetWord)
    (hclrerr : w ≠ clrerrWord) : execWord w s = .next s := by
  simp [execWord, herr, hsreset, hclrerr]

theorem ne_encode_of_illegal {w : Word} {why : Illegal} (h : decode w = .illegal why) (i : Instr) : w ≠ encode i := by
  rintro rfl
  rw [decodeEncodeRoundTrip i] at h
  cases h

/-- Settles O5: the reserved bits as numbers; an illegal word takes an error, or is discarded, being neither SRESET's word
nor CLRERR's. -/
theorem illegalWordsRaiseOrAreDiscarded : Obligations.IllegalWordsRaiseOrAreDiscarded := by
  intro w s
  refine ⟨illegalWord_iff_decode, fun hillegal herr => ?_, fun hillegal herr => ?_⟩ <;>
    obtain ⟨why, hdecode⟩ := illegalWord_iff_decode.1 hillegal
  · exact execWord_of_illegal herr hdecode
  · exact execWord_of_discarded herr (ne_encode_of_illegal hdecode .sreset) (ne_encode_of_illegal hdecode .clrerr)

end Sys2Proof.Machine
end

section
/-! PROOFS. Loading the frequency table (40_table_load.md): what FT_CLEAR (R101) and FT_APPEND (R102) answer, and that entries
loaded one by one stand in the table in load order (R103). -/

namespace Sys2Proof.Machine

/-! ### FT_CLEAR (R101) -/

/-- Settles O30: with no valid tree and no entries the three views read 0. -/
theorem tableClear : Obligations.TableClear := by
  refine fun s => ⟨rfl, by decide, fun t h => ?_⟩
  cases h
  obtain ⟨-, -, -, hroot, -⟩ := status_fields { s with ft := [], phase := .empty, decptr := 0#16 }
  exact ⟨rfl, rfl, hroot⟩

/-! ### FT_APPEND (R102) -/

/-- The converse of `execFtAppend_next`: past the four guards the entry is appended. -/
theorem exec_ftAppend_of_effect {sym : Sym} {s t : State} (h : Effect (.ftAppend sym) s t) :
    exec (.ftAppend sym) s = .next t := by
  obtain ⟨hopen, hcount, hnew, hroom, rfl⟩ := h
  exact (if_neg (ne_true_of_eq_false hopen)).trans <| (if_neg hcount).trans <|
    (if_neg (mt lookupSym_isSome.1 hnew)).trans (if_neg hroom)

/-- Settles O31: each guard is reached past the ones before it, and past all four the command has its effect. -/
theorem tableAppend : Obligations.TableAppend := by
  intro s sym
  have hclosed : s.treeValid = true ↔ s.phase = .built ∨ s.phase = .coded := State.treeValid_iff
  have hpresent : (lookupSym sym s.ft).isSome = true ↔ ∃ e ∈ s.ft, e.sym = sym :=
    lookupSym_isSome.trans List.mem_map
  refine ⟨fun hc => ?_, fun ho h0 => ?_, fun ho h0 hp => ?_, fun ho h0 hp hn => ?_, fun ho h0 hp hn => ?_,
    wordS_toNat 0x04#8 sym⟩
  · exact if_pos (hclosed.2 hc)
  · exact (if_neg (mt hclosed.1 ho)).trans (if_pos h0)
  · exact (if_neg (mt hclosed.1 ho)).trans <| (if_neg h0).trans (if_pos (hpresent.2 hp))
  · exact (if_neg (mt hclosed.1 ho)).trans <| (if_neg h0).trans <| (if_neg (mt hpresent.1 hp)).trans (if_pos hn)
  · exact exec_ftAppend_of_effect
      ⟨eq_false_of_ne_true (mt hclosed.1 ho), h0, mt List.mem_map.1 hp, hn, rfl⟩

/-! ### Loading a list of entries (R103) -/

theorem runOps_cons_of_next {op : BusOp} {ops : List BusOp} {s t : State} (h : runBusOp op s = .next t) :
    runOps (op :: ops) s = runOps ops t := by
  simp only [runOps, h]

theorem runBusOp_wrArg (v : Word) (s : State) : runBusOp (.write (regOffset .arg) v) s = .next { s with arg := v } :=
  memWrite_of_arg (regAt_regOffset .arg)

/-- With no error recorded, the operation that issues a command is that command (R80). -/
theorem runBusOp_cmdOp {i : Instr} {s : State} (herr : s.err = false) : runBusOp (cmdOp i) s = exec i s :=
  calc runBusOp (cmdOp i) s = execWord (encode i) s := memWrite_of_cmd (regAt_regOffset .cmd)
    _ = exec i s := execWord_of_decode herr (decodeEncodeRoundTrip i)

/-- The state in which the entries `es`, loaded one after the other, meet none of the guards of R102. -/
structure Loadable (s : State) (es : List Entry) : Prop where
  noError : s.err = false
  isOpen : s.treeValid = false
  distinct : ((s.ft ++ es).map Entry.sym).Nodup
  positive : ∀ e ∈ es, e.cnt ≠ 0#32
  fits : (s.ft ++ es).length ≤ s.cfg.nmax

/-- The state after one entry has been loaded. -/
def loadEntry (e : Entry) (s : State) : State := { s with arg := e.cnt, ft := s.ft ++ [e], phase := .loading }

section LoadEntries
variable {s : State} {e : Entry} {es : List Entry}

theorem Loadable.tail (h : Loadable s (e :: es)) : Loadable (loadEntry e s) es where
  noError := h.noError
  isOpen := rfl
  distinct := by simpa [loadEntry] using h.distinct
  positive := fun x hx => h.positive x (List.mem_cons_of_mem e hx)
  fits := by simpa [loadEntry] using h.fits

/-- With the entry's count in ARG its FT_APPEND passes the four guards. -/
theorem Loadable.effect_head (h : Loadable s (e :: es)) :
    Effect (.ftAppend e.sym) { s with arg := e.cnt } (loadEntry e s) := by
  have hnew : e.sym ∉ s.ft.map Entry.sym := by
    have hdistinct := h.distinct
    rw [List.map_append, List.map_cons, List.nodup_middle, List.nodup_cons] at hdistinct
    obtain ⟨hnotin, -⟩ := hdistinct
    exact mt (List.mem_append_left _) hnotin
  have hroom : s.ft.length ≠ s.cfg.nmax := by
    have hfits := h.fits
    rw [List.length_append, List.length_cons] at hfits
    omega
  exact ⟨h.isOpen, h.positive e List.mem_cons_self, hnew, hroom, rfl⟩

/-- The two operations of the first entry load it. -/
theorem Loadable.runOps_cons (h : Loadable s (e :: es)) :
    runOps (loadOps (e :: es)) s = runOps (loadOps es) (loadEntry e s) := by
  have happend : runBusOp (cmdOp (.ftAppend e.sym)) { s with arg := e.cnt } = .next (loadEntry e s) :=
    (runBusOp_cmdOp (s := { s with arg := e.cnt }) h.noError).trans (exec_ftAppend_of_effect h.effect_head)
  calc runOps (loadOps (e :: es)) s
      = runOps (cmdOp (.ftAppend e.sym) :: loadOps es) { s with arg := e.cnt } :=
        runOps_cons_of_next (runBusOp_wrArg e.cnt s)
    _ = runOps (loadOps es) (loadEntry e s) := runOps_cons_of_next happend

/-- Loading entries up to `last` appends them in order and leaves the last count in ARG. -/
theorem Loadable.runOps_loadOps {last : Entry} (h : Loadable s (es ++ [last])) :
    runOps (loadOps (es ++ [last])) s =
      .next { s with arg := last.cnt, ft := s.ft ++ (es ++ [last]), phase := .loading } := by
  induction es generalizing s with
  | nil => exact h.runOps_cons
  | cons e es ih =>
    rw [List.cons_append] at h ⊢
    rw [h.runOps_cons, ih h.tail]
    simp [loadEntry]

end LoadEntries

/-- Settles O32: the list is loadable from an open state, and it has a last entry. -/
theorem loadingKeepsInsertionOrder : Obligations.LoadingKeepsInsertionOrder := by
  intro s es _ herr hopen hne hdistinct hpositive hfits
  obtain ⟨es, last, rfl⟩ := (List.eq_nil_or_concat' es).resolve_left hne
  have hload : Loadable s (es ++ [last]) := ⟨herr, State.treeValid_false_iff.2 hopen, hdistinct, hpositive, hfits⟩
  exact ⟨last, List.mem_append_right es List.mem_cons_self, List.getLast?_concat, hload.runOps_loadOps⟩

end Sys2Proof.Machine
end

section
/-! PROOFS. The tree builder (41_tree_builder.md): what BUILD answers (R121, R124, R128, R130), the tie-break examples
(R132), the shape of the tree (R127) and the depth of its leaves (R129); and that a priority queue in the order of R126
takes the same two nodes at each merge, so it builds the same tree. -/

namespace Sys2Proof.Machine

/-! ### BUILD (R121) -/

/-- BUILD past its two guards. -/
theorem exec_build_of_effect {s t : State} (h : Effect .build s t) : exec .build s = .next t := by
  obtain ⟨hphase, htotal, rfl⟩ := h
  exact (if_neg hphase).trans (if_neg (by omega))

/-- An error entry leaves ERR set, so a BUILD that leaves it clear had its effect. -/
theorem effect_build_of_noError {s t : State} (h : exec .build s = .next t) (herr : t.err = false) :
    Effect .build s t := by
  rcases exec_next h with ⟨c, -, rfl⟩ | he
  · cases herr
  · exact he

/-- Settles O34: the guards are taken in order; past them DECPTR is the root, which STATUS shows. -/
theorem buildBehaviour : Obligations.BuildBehaviour := by
  intro s h
  refine ⟨fun hempty => if_pos hempty, fun hphase hover => (if_neg hphase).trans (if_pos hover),
    fun hphase htotal => ?_, by decide⟩
  have hroot := State.rootPtr_toNat h.small
  refine ⟨_, exec_build_of_effect ⟨hphase, htotal, rfl⟩, rfl, hroot, ?_⟩
  obtain ⟨-, -, -, hatRoot, -⟩ := status_fields { s with nodes := buildTree s.ft, phase := .built, decptr := s.rootPtr }
  exact hatRoot.trans (if_pos (State.decAtRoot_iff.2 ⟨.inl rfl, hroot⟩))

/-- Settles O39: both effects write the tree of the one table and its root; (5, 2) and (2, 5) give different trees. -/
theorem buildDependsOnTheTableAlone : Obligations.BuildDependsOnTheTableAlone := by
  refine ⟨fun s s' t t' hft _ _ ht ht' herr herr' => ?_, ?_⟩
  · obtain ⟨-, -, rfl⟩ := effect_build_of_noError ht herr
    obtain ⟨-, -, rfl⟩ := effect_build_of_noError ht' herr'
    simp only [State.rootPtr, State.rootIdx, State.n, hft, and_self]
  · exact ⟨[⟨1#16, 5#32⟩, ⟨2#16, 2#32⟩], [⟨2#16, 2#32⟩, ⟨1#16, 5#32⟩], .swap _ _ _, by decide⟩

/-- One count is a weight, so it passes the second guard (R123). -/
theorem totalCount_singleton_le (e : Entry) : totalCount [e] ≤ 2 ^ 32 - 1 := by
  have := e.cnt.isLt
  simp only [totalCount, List.map_cons, List.map_nil, List.sum_cons, List.sum_nil]
  omega

/-- A valid tree of one node shows that node as the root, at index 0 (R37, R38). -/
theorem rootRegisters_of_singleton {s : State} {nd : Node} (hv : s.treeValid = true) (hn : s.n = 1)
    (hnodes : s.nodes = [nd]) : regValue .root s = 0x80000000#32 ∧ regValue .rootw s = nd.weight := by
  have hidx : s.rootIdx = 0 := by rw [State.rootIdx, hn]
  constructor
  · rw [regValue, rootView, if_pos hv, State.rootPtr, hidx]
    rfl
  · rw [regValue, shownNode_of_valid hv le_rfl, hnodes, hidx]
    rfl

/-- Settles O37: the tree of one entry is its leaf, at the root index 0. -/
theorem singleEntryTree : Obligations.SingleEntryTree := by
  intro s e hft hphase
  have htree : buildTree s.ft = [.leaf e.sym e.cnt] := by rw [hft]; rfl
  have hn : s.n = 1 := by rw [State.n, hft]; rfl
  have hptr : s.rootPtr = 0#16 := by rw [State.rootPtr, State.rootIdx, hn]
  refine ⟨{ s with nodes := [.leaf e.sym e.cnt], phase := .built, decptr := 0#16 },
    exec_build_of_effect ⟨hphase, hft ▸ totalCount_singleton_le e, by rw [htree, hptr]⟩, rfl, ?_⟩
  exact rootRegisters_of_singleton (nd := .leaf e.sym e.cnt) rfl hn rfl

/-! ### The tie-break examples (R132) -/

/-- Settles O38: the algorithm is run on each of the three tables, the symbols left open. -/
theorem tieBreakConsequences : Obligations.TieBreakConsequences :=
  ⟨fun _ _ => ⟨rfl, rfl⟩, fun _ _ => ⟨rfl, rfl⟩, fun _ _ _ _ => ⟨rfl, rfl⟩⟩

/-! ### The shape of the tree (R127) -/

theorem isParent_iff {nodes : List Node} {k x : Nat} :
    IsParent nodes k x ↔ ∃ nd, nodes[k]? = some nd ∧ x ∈ kids nd := by
  constructor
  · rintro ⟨wt, l, r, hk, hx⟩
    exact ⟨_, hk, by simpa [kids, eq_comm] using hx⟩
  · rintro ⟨nd, hk, hx⟩
    cases nd with
    | leaf sym wt => simp [kids] at hx
    | internal wt l r => exact ⟨wt, l, r, hk, by simpa [kids, eq_comm] using hx⟩

section Shape
variable {n : Nat} {nodes : List Node}

theorem TreeShape.isParent_unique (t : TreeShape n nodes) {j k x : Nat} (hj : IsParent nodes j x)
    (hk : IsParent nodes k x) : j = k := by
  obtain ⟨nj, hnj, hxj⟩ := isParent_iff.1 hj
  obtain ⟨nk, hnk, hxk⟩ := isParent_iff.1 hk
  exact t.parent_unique hnj hnk hxj hxk

theorem TreeShape.exists_isParent (t : TreeShape n nodes) {x : Nat} (hx : x < 2 * n - 2) : ∃ k, IsParent nodes k x := by
  obtain ⟨k, wt, l, r, hk, -, hkid⟩ := t.exists_parent hx
  exact ⟨k, wt, l, r, hk, hkid.imp Eq.symm Eq.symm⟩

theorem TreeShape.root_no_parent (t : TreeShape n nodes) (k : Nat) : ¬IsParent nodes k (2 * n - 2) := by
  intro h
  obtain ⟨nd, hk, hx⟩ := isParent_iff.1 h
  exact t.root_not_child hk hx

end Shape

/-- Settles O35: the merge loop ends with the root alone in the working collection, so every other node is a child of
one node and the root's weight is the whole count. -/
theorem builtTreeShape : Obligations.BuiltTreeShape := by
  intro ft hne hsmall htotal
  obtain ⟨x, g⟩ := buildTree_grown hne hsmall htotal
  obtain ⟨rfl, t⟩ := treeShape_of_grown hne hsmall g
  refine ⟨t.length_eq, g.leaves, fun k hge hle => ?_, fun x hx => ?_, t.root_no_parent, by simpa using g.total⟩
  · have hpos := t.pos
    have hlen := t.length_eq
    obtain ⟨wt, l, r, hk, hl, hr, hwt⟩ := t.internal_of_ge k hge (by omega)
    exact ⟨wt, l, r, hk, hl, hr, fun hlr => t.children_ne hk (congrArg BitVec.toNat hlr), hwt⟩
  · obtain ⟨k, hk⟩ := t.exists_isParent hx
    exact ⟨k, hk, fun j hj => t.isParent_unique hj hk⟩

/-! ### The depth of a leaf (R129) -/

theorem Path.ne_nil {nodes : List Node} {v x : Nat} {c : Code} (h : Path nodes v c x) (hne : v ≠ x) : c ≠ [] := by
  rintro rfl
  exact hne h.nil_inv

/-- Settles O40: a path is shorter than the number of leaves, two leaves have a root that is neither, and CODES holds
paths. -/
theorem leafDepthBound : Obligations.LeafDepthBound := by
  refine ⟨fun ft c i hne hsmall htotal hi hpath => ?_, fun s h hcoded c hc => ?_⟩
  · have hlt := (buildTree_shape hne hsmall htotal).path_length_lt hpath
    refine ⟨fun hn => ⟨?_, by omega⟩, fun hn => List.length_eq_zero_iff.1 (by omega)⟩
    exact List.length_pos_iff.2 (hpath.ne_nil (by omega))
  · have hv := State.codesValid_iff.2 hcoded
    have t := h.shape (State.treeValid_of_codesValid hv)
    obtain ⟨i, hi⟩ := List.getElem?_of_mem hc
    obtain ⟨-, hpath⟩ := (t.codes_path (h.codesDerived hv)).2 i c hi
    have hlt := t.path_length_lt hpath
    exact ⟨by omega, Nat.sub_le_sub_right h.tableFits 1⟩

/-! ### The priority queue (R126, R131) -/

theorem keyBefore_iff {nodes : List Node} {x y : Nat} :
    keyBefore nodes x y = true ↔ weightAt nodes x < weightAt nodes y ∨ weightAt nodes x = weightAt nodes y ∧ x < y := by
  simp [keyBefore]

theorem keyBefore_asymm {nodes : List Node} {x y : Nat} (h : keyBefore nodes x y = true) :
    ¬keyBefore nodes y x = true := by
  rw [keyBefore_iff] at *
  omega

theorem pqLeast_mem {nodes : List Node} {queue : List Nat} {y : Nat} (h : pqLeast nodes queue = some y) :
    y ∈ queue := by
  induction queue with
  | nil => cases h
  | cons x xs ih =>
    rw [pqLeast] at h
    split at h
    · cases h
      exact List.mem_cons_self
    next z hz =>
      split at h
      · cases h
        exact List.mem_cons_of_mem x (ih hz)
      · cases h
        exact List.mem_cons_self

/-- The element that stands before all others of the queue is its minimum. -/
theorem pqLeast_of_first {nodes : List Node} {queue : List Nat} {a : Nat} (ha : a ∈ queue)
    (hfirst : ∀ y ∈ queue, y = a ∨ keyBefore nodes a y = true) : pqLeast nodes queue = some a := by
  induction queue with
  | nil => cases ha
  | cons x xs ih =>
    rw [pqLeast]
    by_cases hxs : a ∈ xs
    · rw [ih hxs fun y hy => hfirst y (List.mem_cons_of_mem x hy)]
      rcases hfirst x List.mem_cons_self with rfl | hx
      · exact ite_self _
      · exact if_pos hx
    · obtain rfl : a = x := (List.mem_cons.1 ha).resolve_right hxs
      cases hleast : pqLeast nodes xs with
      | none => rfl
      | some y =>
        have hy := pqLeast_mem hleast
        rcases hfirst y (List.mem_cons_of_mem a hy) with rfl | hay
        · exact absurd hy hxs
        · exact if_neg (keyBefore_asymm hay)

/-- The working collection of R125: nodes that exist, in the order (weight, index). -/
structure InKeyOrder (nodes : List Node) (w : List Nat) : Prop where
  exist : ∀ x ∈ w, x < nodes.length
  ordered : w.Pairwise fun x y => keyBefore nodes x y = true

section KeyOrder
variable {nodes : List Node} {a b : Nat} {rest queue : List Nat}

/-- A queue of the collection's nodes, in any order, has the collection's first node as its minimum. -/
theorem pqLeast_of_perm (h : (a :: rest).Pairwise fun x y => keyBefore nodes x y = true)
    (hq : queue.Perm (a :: rest)) : pqLeast nodes queue = some a :=
  pqLeast_of_first (hq.mem_iff.2 List.mem_cons_self) fun _ hy =>
    (List.mem_cons.1 (hq.mem_iff.1 hy)).imp_right ((List.pairwise_cons.1 h).1 _)

theorem pqLeast_eq_none_of_perm_nil (hq : queue.Perm []) : pqLeast nodes queue = none := by
  rw [hq.eq_nil, pqLeast]

theorem erase_perm_of_perm_cons (hq : queue.Perm (a :: rest)) : (queue.erase a).Perm rest := by
  simpa using hq.erase a

theorem merged_perm : (merged nodes a b rest).Perm (nodes.length :: rest) :=
  (stableSortBy_perm _ _).trans (List.perm_append_singleton _ _)

/-- One merge keeps the order: the old nodes keep their weights, and the new node has the greatest index. -/
theorem InKeyOrder.merge (h : InKeyOrder nodes (a :: b :: rest)) :
    InKeyOrder (nodes ++ [mergedNode nodes a b]) (merged nodes a b rest) where
  exist x hx := by
    rw [List.length_append, List.length_singleton]
    rcases List.mem_cons.1 (merged_perm.mem_iff.1 hx) with rfl | hx
    · exact Nat.lt_succ_self _
    · exact Nat.lt_succ_of_lt (h.exist x (by simp [hx]))
  ordered := by
    have hrest : ∀ x ∈ rest, x < nodes.length := fun x hx => h.exist x (by simp [hx])
    obtain ⟨-, hordered⟩ := List.pairwise_cons.1 h.ordered
    obtain ⟨-, hordered⟩ := List.pairwise_cons.1 hordered
    refine (stableSortBy_lex (List.pairwise_append.2 ⟨?_, List.pairwise_singleton _ _, ?_⟩)).imp keyBefore_iff.2
    · refine hordered.imp_of_mem fun {x y} hx hy hxy heq => ?_
      rw [weightAt_append _ (hrest x hx), weightAt_append _ (hrest y hy)] at heq
      rw [keyBefore_iff] at hxy
      omega
    · intro x hx y hy _
      rw [List.mem_singleton.1 hy]
      exact hrest x hx

theorem inKeyOrder_start (ft : List Entry) :
    InKeyOrder (leafNodes ft) (stableSortBy (weightAt (leafNodes ft)) (List.range ft.length)) where
  exist _ hx := (grown_start ft).mem_lt hx
  ordered := (grown_start ft).sorted.imp keyBefore_iff.2

/-- The two loops take the same two nodes at each merge: the first two of the collection are the queue's two minima. -/
theorem InKeyOrder.mergeLoop_eq_pqLoop {w : List Nat} (h : InKeyOrder nodes w) (hq : queue.Perm w) (fuel : Nat) :
    mergeLoop fuel nodes w = pqLoop fuel nodes queue := by
  induction fuel generalizing nodes w queue with
  | zero => cases w <;> rfl
  | succ fuel ih =>
    match w with
    | [] => simp only [mergeLoop, pqLoop, pqLeast_eq_none_of_perm_nil hq]
    | [a] =>
      simp only [mergeLoop, pqLoop, pqLeast_of_perm h.ordered hq,
        pqLeast_eq_none_of_perm_nil (erase_perm_of_perm_cons hq)]
    | a :: b :: rest =>
      have hqb := erase_perm_of_perm_cons hq
      have hqrest := erase_perm_of_perm_cons hqb
      simp only [pqLoop, pqLeast_of_perm h.ordered hq, pqLeast_of_perm (List.pairwise_cons.1 h.ordered).2 hqb]
      exact ih h.merge ((hqrest.cons _).trans merged_perm.symm)

end KeyOrder

/-- Settles O36: the loops start with the leaves, sorted in the one and in load order in the other. -/
theorem mergeSortTreeEqualsPriorityQueueTree : Obligations.MergeSortTreeEqualsPriorityQueueTree :=
  fun ft => (inKeyOrder_start ft).mergeLoop_eq_pqLoop (stableSortBy_perm _ _).symm ft.length

end Sys2Proof.Machine
end

section
/-! PROOFS. The code generator (42_code_generator.md): GENCODES writes the paths to the leaves (R140, R142);
no such path begins another, and their Kraft sum telescopes over the tree to the root's term (R143). -/

namespace Sys2Proof.Machine

/-! ### GENCODES (R140, R142) -/

theorem exec_gencodes_of_noTree {s : State} (hv : s.treeValid = false) :
    exec .gencodes s = .next (errorEntry .sequenceError (encode .gencodes) s) := by
  simp [exec, execGencodes, hv, raise]

theorem exec_gencodes_of_codes {s : State} {codes : List Code} (hv : s.treeValid = true)
    (hcodes : genCodes s.n s.nodes = some codes) :
    exec .gencodes s = .next { s with codes := codes, phase := .coded } := by
  simp [exec, execGencodes, hv, hcodes]

/-- In CODED, GENCODES writes the codes that are there (R39, R140). -/
theorem Inv.exec_gencodes_of_coded {s : State} (h : Inv s) (hcoded : s.phase = .coded) :
    Machine.exec .gencodes s = .next s := by
  have hv := State.codesValid_iff.2 hcoded
  rw [exec_gencodes_of_codes (State.treeValid_of_codesValid hv) (h.codesDerived hv), ← hcoded]

/-- Settles O41: the walk finds a path to every leaf, and a finished tree has one path to each node. -/
theorem generatedCodesAreTheUniquePaths : Obligations.GeneratedCodesAreTheUniquePaths := by
  intro s h
  refine ⟨fun hphase => exec_gencodes_of_noTree (State.treeValid_false_iff.2 hphase), fun hphase => ?_,
    h.exec_gencodes_of_coded, by decide⟩
  have hv := State.treeValid_iff.2 hphase
  have t := h.shape hv
  obtain ⟨codes, hcodes, hlen, hpaths⟩ := t.genCodes_spec
  refine ⟨codes, exec_gencodes_of_codes hv hcodes, hlen, fun i hi => ?_⟩
  obtain ⟨c, hc, hpath⟩ := hpaths i hi
  exact ⟨c, hc, hpath, fun d hd => t.path_unique hd hpath⟩

/-- CODE_LEN of an empty code shows its VALID bit alone (R47, R142). -/
theorem codeLen_of_emptyCode {s : State} (hv : s.codesValid = true) (hi : s.idxI < s.n)
    (hc : s.codes[s.idxI]? = some []) : regValue .codeLen s = 0x80000000#32 := by
  obtain ⟨hlen, -⟩ := codeWindows_of_shown ((shownCode_of_valid hv hi).trans hc)
  exact hlen.trans (by decide)

/-- Settles O42: the tree of one entry is its leaf, where the walk from the root ends at once. -/
theorem singleEntryCode : Obligations.SingleEntryCode := by
  intro s e h hft hphase
  have hv := State.treeValid_iff.2 hphase
  have hn : s.n = 1 := by rw [State.n, hft]; rfl
  have hpos : 0 < s.n := by omega
  have hnodes : s.nodes = [.leaf e.sym e.cnt] := by rw [h.nodesBuilt hv, hft]; rfl
  have hcodes : genCodes s.n s.nodes = some [[]] := by rw [hn, hnodes]; rfl
  exact ⟨exec_gencodes_of_codes hv hcodes, codeLen_of_emptyCode rfl hpos rfl⟩

/-! ### Paths to leaves (R143) -/

section Shape
variable {n : Nat} {nodes : List Node}

/-- A path to a leaf begins no path to another node: it could not go on. -/
theorem TreeShape.eq_of_prefix (t : TreeShape n nodes) {i j : Nat} {c d : Code} (hi : i < n)
    (hc : Path nodes (2 * n - 2) c i) (hd : Path nodes (2 * n - 2) d j) (hprefix : c <+: d) : i = j := by
  obtain ⟨rest, rfl⟩ := hprefix
  obtain ⟨x, hx, hrest⟩ := hd.split
  obtain rfl := hc.target_unique hx
  obtain ⟨sym, wt, hleaf⟩ := t.leaf_of_lt i hi
  exact (hrest.nil_of_not_internal (by simp [hleaf])).2.symm

/-- Each node's depth is the length of the path to it. -/
theorem TreeShape.exists_depth (t : TreeShape n nodes) :
    ∃ depth : Nat → Nat, ∀ x c, Path nodes (2 * n - 2) c x → c.length = depth x := by
  have hlength : ∀ x, ∃ m, ∀ c, Path nodes (2 * n - 2) c x → c.length = m := by
    intro x
    by_cases hx : ∃ c, Path nodes (2 * n - 2) c x
    · obtain ⟨c, hc⟩ := hx
      exact ⟨c.length, fun d hd => congrArg List.length (t.path_unique hd hc)⟩
    · exact ⟨0, fun c hc => absurd ⟨c, hc⟩ hx⟩
  exact Classical.skolem.1 hlength

/-- Where each internal node's term is the sum of its children's, the terms of the first `m` nodes sum to those of the
leaves and of the children so far. -/
theorem TreeShape.sum_range_eq (t : TreeShape n nodes) {term : Nat → Nat}
    (hterm : ∀ k wt l r, nodes[k]? = some (.internal wt l r) → term k = term l.toNat + term r.toNat)
    {m : Nat} (hn : n ≤ m) (hm : m ≤ nodes.length) :
    ((List.range m).map term).sum =
      ((List.range n).map term).sum + ((childIndices (nodes.take m)).map term).sum := by
  induction m, hn using Nat.le_induction with
  | base =>
    have hnone : childIndices (nodes.take n) = [] := by
      refine List.flatMap_eq_nil_iff.2 fun nd hnd => ?_
      obtain ⟨i, hi, rfl⟩ := List.mem_take_iff_getElem.1 hnd
      obtain ⟨sym, wt, hleaf⟩ := t.leaf_of_lt i (by omega)
      rw [(List.getElem?_eq_some_iff.1 hleaf).2, kids]
    simp [hnone]
  | succ m hn ih =>
    obtain ⟨wt, l, r, hk, -⟩ := t.internal_of_ge m hn hm
    have hsum := ih (by omega)
    have hnew := hterm m wt l r hk
    have htake : childIndices (nodes.take (m + 1)) = childIndices (nodes.take m) ++ [l.toNat, r.toNat] := by
      rw [List.take_add_one, hk, childIndices_append]
      rfl
    simp only [List.range_succ, htake, List.map_append, List.sum_append, List.map_cons, List.map_nil, List.sum_cons,
      List.sum_nil]
    omega

/-- Such terms telescope: every node but the root is a child once, so the leaves' terms sum to the root's. -/
theorem TreeShape.sum_leaves_eq_root (t : TreeShape n nodes) {term : Nat → Nat}
    (hterm : ∀ k wt l r, nodes[k]? = some (.internal wt l r) → term k = term l.toNat + term r.toNat) :
    ((List.range n).map term).sum = term (2 * n - 2) := by
  have hpos := t.pos
  have hlen := t.length_eq
  have hall := t.sum_range_eq hterm (m := nodes.length) (by omega) le_rfl
  have honce := (t.once.map term).sum_nat
  rw [List.take_length] at hall
  rw [List.map_cons, List.sum_cons] at honce
  omega

/-- R143: the Kraft sum over the leaves is 1, multiplied by 2^n. -/
theorem TreeShape.kraft (t : TreeShape n nodes) {depth : Nat → Nat}
    (hdepth : ∀ x c, Path nodes (2 * n - 2) c x → c.length = depth x) :
    ((List.range n).map fun i => 2 ^ (n - depth i)).sum = 2 ^ n := by
  have hroot : depth (2 * n - 2) = 0 := (hdepth _ _ (.here _)).symm
  rw [t.sum_leaves_eq_root (term := fun x => 2 ^ (n - depth x)) ?_, hroot, Nat.sub_zero]
  intro k wt l r hk
  have hlt : k < 2 * n - 1 := t.length_eq ▸ TreeShape.lt_of_getElem? hk
  obtain ⟨c, hc⟩ := t.exists_path (2 * n - 2 - k) k (by omega)
  have hck := hdepth k c hc
  have hl := hdepth _ _ (hc.append (.left hk (.here _)))
  have hr := hdepth _ _ (hc.append (.right hk (.here _)))
  rw [List.length_append, List.length_singleton, hck] at hl hr
  have hshort := t.path_length_lt hc
  simp only [← hl, ← hr]
  rw [← two_mul, ← pow_succ']
  congr 1
  omega

end Shape

/-! ### The code table (R143) -/

/-- CODES[i] is the path to leaf i (R39). -/
theorem Inv.code_path {s : State} (h : Inv s) (hcoded : s.phase = .coded) {i : Nat} {c : Code}
    (hc : s.codes[i]? = some c) : i < s.n ∧ Path s.nodes (2 * s.n - 2) c i := by
  have hv := State.codesValid_iff.2 hcoded
  exact ((h.shape (State.treeValid_of_codesValid hv)).codes_path (h.codesDerived hv)).2 i c hc

theorem Inv.codes_kraft {s : State} (h : Inv s) (hcoded : s.phase = .coded) :
    (s.codes.map fun c => 2 ^ (s.n - c.length)).sum = 2 ^ s.n := by
  have hv := State.codesValid_iff.2 hcoded
  have t := h.shape (State.treeValid_of_codesValid hv)
  obtain ⟨depth, hdepth⟩ := t.exists_depth
  rw [← t.kraft hdepth]
  congr 1
  refine List.ext_getElem (by simp [h.codes_length hv]) fun i hi _ => ?_
  rw [List.length_map] at hi
  obtain ⟨-, hpath⟩ := h.code_path hcoded (List.getElem?_eq_getElem hi)
  simp [hdepth i _ hpath]

/-- Settles O43: codes are paths to leaves, so no code begins another; equal codes would begin each other. -/
theorem codeTableProperties : Obligations.CodeTableProperties := by
  intro s h hcoded hn
  have t := h.shape (State.treeValid_iff.2 (.inr hcoded))
  have hprefixFree : ∀ (i j : Nat) (ci cj : Code), s.codes[i]? = some ci → s.codes[j]? = some cj → i ≠ j →
      ¬ci <+: cj := by
    intro i j ci cj hci hcj hne hprefix
    obtain ⟨hi, hpi⟩ := h.code_path hcoded hci
    obtain ⟨-, hpj⟩ := h.code_path hcoded hcj
    exact hne (t.eq_of_prefix hi hpi hpj hprefix)
  refine ⟨hprefixFree, fun c hc => ?_, ?_, h.codes_kraft hcoded⟩
  · obtain ⟨i, hi⟩ := List.getElem?_of_mem hc
    obtain ⟨hlt, hpath⟩ := h.code_path hcoded hi
    have hlen := t.path_length_lt hpath
    exact ⟨List.length_pos_iff.2 (hpath.ne_nil (by omega)), by omega⟩
  · refine List.pairwise_iff_getElem.2 fun i j hi hj hlt heq => ?_
    have hdiffer := hprefixFree i j _ _ (List.getElem?_eq_getElem hi) (List.getElem?_eq_getElem hj) hlt.ne
    exact hdiffer (heq ▸ List.prefix_rfl)

end Sys2Proof.Machine
end

section
/-! PROOFS. The encoder (43_encoder.md): what ENC_SYM answers (R160), that the codes of a sequence of entries are appended
one after the other (R162), and that with one entry they are all empty (R163), while any bit is an invalid stream (R257). -/

namespace Sys2Proof.Machine

/-! ### ENC_SYM (R160) -/

theorem exec_encSym_of_notCoded {s : State} {sym : Sym} (hv : s.codesValid = false) :
    exec (.encSym sym) s = .next (errorEntry .sequenceError (encode (.encSym sym)) s) := by
  simp [exec, execEncSym, hv, raise]

theorem exec_encSym_of_unknown {s : State} {sym : Sym} (hv : s.codesValid = true) (hi : lookupSym sym s.ft = none) :
    exec (.encSym sym) s = .next (errorEntry .unknownSymbol (encode (.encSym sym)) s) := by
  simp [exec, execEncSym, hv, hi, raise]

theorem exec_encSym_of_full {s : State} {sym : Sym} {i : Nat} {c : Code} (hv : s.codesValid = true)
    (hi : lookupSym sym s.ft = some i) (hc : s.codes[i]? = some c)
    (hfull : s.cfg.obitsCap < s.obits.length + c.length) :
    exec (.encSym sym) s = .next (errorEntry .outputFull (encode (.encSym sym)) s) := by
  simp [exec, execEncSym, hv, hi, hc, hfull, raise]

/-- Lookup of an entry's symbol finds that entry, because no other has the symbol (R34, R161). -/
theorem Inv.lookupSym_entry {s : State} (h : Inv s) {i : Nat} {e : Entry} (he : s.ft[i]? = some e) :
    lookupSym e.sym s.ft = some i := by
  obtain ⟨hi, rfl⟩ := List.getElem?_eq_some_iff.1 he
  exact lookupSym_getElem h.symbolsDistinct hi

/-- A code has fewer bits than the table has entries (R129). -/
theorem Inv.code_length_le {s : State} (h : Inv s) (hcoded : s.phase = .coded) {i : Nat} {c : Code}
    (hc : s.codes[i]? = some c) : c.length ≤ s.n - 1 := by
  obtain ⟨-, hpath⟩ := h.code_path hcoded hc
  have hlt := (h.shape (State.treeValid_iff.2 (.inr hcoded))).path_length_lt hpath
  omega

/-- Every code fits an empty OBITS: R6 gives it room for NMAX−1 bits. -/
theorem Inv.code_length_le_obitsCap {s : State} (h : Inv s) (hcoded : s.phase = .coded) {i : Nat} {c : Code}
    (hc : s.codes[i]? = some c) : c.length ≤ s.cfg.obitsCap :=
  calc c.length ≤ s.n - 1 := h.code_length_le hcoded hc
    _ ≤ s.cfg.nmax - 1 := Nat.sub_le_sub_right h.tableFits 1
    _ ≤ s.cfg.obitsCap := by
      obtain ⟨-, -, -, hcap, -⟩ := Params.wf_bounds h.cfgLegal
      exact hcap

/-- OBITS_NE is 1 after bits were appended (R29). -/
theorem status_obitsNe_of_pushBits {c : Code} (hc : c ≠ []) (s : State) :
    (regValue .status (pushBits c s)).toNat / 2 ^ 9 % 2 = 1 := by
  obtain ⟨-, -, -, -, hobits, -⟩ := status_fields (pushBits c s)
  have hpos := List.length_pos_iff.2 hc
  exact hobits.trans (if_pos (by simp; omega))

/-- Settles O44: each guard is reached past the ones before it; the entry that Lookup finds is the one with the symbol, and
it has a code. -/
theorem encodeSymbolBehaviour : Obligations.EncodeSymbolBehaviour := by
  refine fun s sym h => ⟨fun hphase => ?_, fun hcoded hnone => ?_, fun i e hcoded he hsym => ?_, wordS_toNat 0x07#8 sym⟩
  · exact exec_encSym_of_notCoded (eq_false_of_ne_true (mt State.codesValid_iff.1 hphase))
  · exact exec_encSym_of_unknown (State.codesValid_iff.2 hcoded) (lookupSym_none.2 (by simpa using hnone))
  · subst hsym
    have hv := State.codesValid_iff.2 hcoded
    have hi := h.lookupSym_entry he
    obtain ⟨code, hcode⟩ := h.code_at hv (List.getElem?_eq_some_iff.1 he).1
    exact ⟨code, hcode, exec_encSym_of_full hv hi hcode, exec_encSym_code hv hi hcode,
      fun hne => status_obitsNe_of_pushBits hne s, fun _ => h.code_length_le_obitsCap hcoded hcode⟩

/-! ### A sequence of symbols (R162) -/

/-- Settles O45: by induction on the sequence; each command appends its entry's code and leaves table and codes alone. -/
theorem encodingConcatenatesCodes : Obligations.EncodingConcatenatesCodes := by
  intro s js es cs h hcoded hes hcs hroom
  induction js generalizing s es cs with
  | nil =>
    obtain rfl : es = [] := by simpa using hes
    obtain rfl : cs = [] := by simpa using hcs
    simp [execAll]
  | cons j js ih =>
    obtain ⟨e, es, rfl, he, hes⟩ := List.map_eq_cons_iff.1 hes.symm
    obtain ⟨c, cs, rfl, hc, hcs⟩ := List.map_eq_cons_iff.1 hcs.symm
    rw [List.flatten_cons, List.length_append] at hroom
    have hfirst : exec (.encSym e.sym) s = .next (pushBits c s) :=
      exec_encSym_code (State.codesValid_iff.2 hcoded) (h.lookupSym_entry he.symm) hc.symm (by omega)
    have hrest := ih (pushBits c s) es cs (inv_pushBits h (by omega)) hcoded hes.symm hcs.symm
      (by rw [pushBits_obits, pushBits_cfg, List.length_append]; omega)
    rw [List.map_cons, execAll_cons_next hfirst, hrest]
    simp [pushBits]

/-! ### One entry (R163, R257) -/

/-- With one entry the only code is empty (R142). -/
theorem Inv.firstCode_of_single {s : State} (h : Inv s) (hcoded : s.phase = .coded) (hn : s.n = 1) :
    s.codes[0]? = some [] := by
  obtain ⟨c, hc⟩ := h.code_at (State.codesValid_iff.2 hcoded) (i := 0) (hn.symm ▸ Nat.zero_lt_one : 0 < s.n)
  have hlen := h.code_length_le hcoded hc
  rw [hn] at hlen
  rw [hc, List.length_eq_zero_iff.1 (Nat.le_zero.1 hlen)]

/-- With one entry the tree has no internal node, so DECPTR stays at the root (R184). -/
theorem Inv.pointer_of_single {s : State} (h : Inv s) (hv : s.treeValid = true) (hn : s.n = 1) :
    s.decptr.toNat = s.rootIdx := by
  refine (h.pointerInTree hv).resolve_right ?_
  rintro ⟨wt, l, r, hinner⟩
  have t := h.shape hv
  have hge := t.ge_of_internal hinner
  have hlt := TreeShape.lt_of_getElem? hinner
  rw [t.length_eq] at hlt
  omega

theorem exec_decBit_of_single {s : State} (hv : s.treeValid = true) (hn : s.n = 1) (b : Bit) :
    exec (.decBit (bvOf b)) s =
      .next (errorEntry .truncatedOrCorruptStream (encode (.decBit (bvOf b))) s) := by
  simp [exec, execDecBit, hv, bitOf_bvOf, hn, raise]

/-- Settles O52: k occurrences append k empty codes (R162); the pointer is at the root and no bit can move it. -/
theorem singleSymbolStreamIsEmpty : Obligations.SingleSymbolStreamIsEmpty := by
  intro s e k h hft hcoded
  have hv := State.treeValid_iff.2 (.inr hcoded)
  have hn : s.n = 1 := by rw [State.n, hft]; rfl
  refine ⟨?_, exec_decEnd_root hv (h.pointer_of_single hv hn), exec_decBit_of_single hv hn⟩
  have hencode := encodingConcatenatesCodes s (List.replicate k 0) (List.replicate k e) (List.replicate k []) h hcoded
    (by simp [hft]) (by simp [h.firstCode_of_single hcoded hn]) (by simpa using h.bitsFit)
  simpa using hencode

end Sys2Proof.Machine
end

section
/-! PROOFS. The decoder's commands (44_decoder.md): where the pointer may be (R184), and what DEC_BIT (R180, R181),
DEC_END (R182) and DEC_RST (R183) answer. -/

namespace Sys2Proof.Machine

/-! ### The pointer (R184) -/

/-- DEC_AT_ROOT as STATUS shows it while the tree is valid (R29). -/
theorem status_decAtRoot (s : State) (hv : s.treeValid = true) :
    (regValue .status s).toNat / 2 ^ 8 % 2 = if s.decptr.toNat = 2 * s.n - 2 then 1 else 0 := by
  obtain ⟨-, -, -, hroot, -⟩ := status_fields s
  exact hroot.trans (by simp only [State.decAtRoot_iff, State.treeValid_iff.1 hv, true_and])

section Shape
variable {n : Nat} {nodes : List Node}

/-- The leaves of a finished tree stand below n (R35). -/
theorem TreeShape.lt_of_leaf (t : TreeShape n nodes) {k : Nat} {sym : Sym} {wt : Word}
    (h : nodes[k]? = some (.leaf sym wt)) : k < n := by
  by_contra hk
  obtain ⟨w, l, r, hinner, -⟩ := t.internal_of_ge k (by omega) (TreeShape.lt_of_getElem? h)
  rw [h] at hinner
  cases hinner

/-- No node stands after the root. -/
theorem TreeShape.le_root (t : TreeShape n nodes) {k : Nat} {nd : Node} (h : nodes[k]? = some nd) :
    k ≤ 2 * n - 2 := by
  have hlt := TreeShape.lt_of_getElem? h
  have hlen := t.length_eq
  omega

/-- Each child stands before its parent (R127). -/
theorem TreeShape.child_lt (t : TreeShape n nodes) {k : Nat} {wt : Word} {l r : NodeIdx}
    (h : nodes[k]? = some (.internal wt l r)) (b : Bit) : (if b then r else l).toNat < k := by
  obtain ⟨hl, hr⟩ := t.children_lt h
  cases b
  · exact hl
  · exact hr

end Shape

/-- Settles O49: internal nodes stand from n on, and none after the root; with one entry the root is 0. -/
theorem pointerStaysInTheTree : Obligations.PointerStaysInTheTree := by
  intro s h hphase
  have hv := State.treeValid_iff.2 hphase
  refine ⟨fun hn => ?_, fun hn => ?_⟩
  · obtain ⟨wt, l, r, hinner⟩ := h.pointer hv (by omega)
    exact ⟨(h.shape hv).ge_of_internal hinner, (h.shape hv).le_root hinner, wt, l, r, hinner⟩
  · have hroot := h.pointer_of_single hv hn
    rw [State.rootIdx, hn] at hroot
    exact BitVec.eq_of_toNat_eq hroot

/-! ### DEC_BIT (R180, R181) -/

theorem exec_decBit_of_noTree {bv : BitVec 8} {s : State} (hv : s.treeValid = false) :
    exec (.decBit bv) s = .next (errorEntry .sequenceError (encode (.decBit bv)) s) := by
  simp [exec, execDecBit, hv, raise]

theorem exec_decBit_of_invalidBit {bv : BitVec 8} {s : State} (hv : s.treeValid = true) (hbv : 1 < bv.toNat) :
    exec (.decBit bv) s = .next (errorEntry .truncatedOrCorruptStream (encode (.decBit bv)) s) := by
  simp [exec, execDecBit, hv, bitOf_none.2 hbv, raise]

theorem exec_decBit_of_full {s : State} {b : Bit} {c : NodeIdx} {sym : Sym} {wt : Word} (hv : s.treeValid = true)
    (hn : s.n ≠ 1) (ht : decTarget b s = some (c, .leaf sym wt)) (hfull : s.osyms.length = s.cfg.osymsCap) :
    exec (.decBit (bvOf b)) s = .next (errorEntry .outputFull (encode (.decBit (bvOf b))) s) := by
  simp [exec, execDecBit, hv, bitOf_bvOf, hn, ht, hfull, raise]

/-- A bit value that is not invalid presents a bit (R87). -/
theorem exists_bvOf {bv : BitVec 8} (h : bv.toNat ≤ 1) : ∃ b, bv = bvOf b := by
  obtain ⟨b, hb⟩ := Option.ne_none_iff_exists'.1 (mt bitOf_none.1 (Nat.not_lt.2 h))
  exact ⟨b, bitOf_some.1 hb⟩

/-- The child that a bit's BV names is the child that the bit selects. -/
theorem ite_bvOf {α : Type} (b : Bit) (l r : α) : (if bvOf b = 0#8 then l else r) = if b then r else l := by
  cases b <;> rfl

/-- The leaf of an entry has the entry's symbol (R122). -/
theorem Inv.entry_of_leaf {s : State} (h : Inv s) (hv : s.treeValid = true) {k : Nat} {sym : Sym} {wt : Word}
    (hleaf : s.nodes[k]? = some (.leaf sym wt)) : ∃ e, s.ft[k]? = some e ∧ sym = e.sym := by
  have hk : k < s.ft.length := (h.shape hv).lt_of_leaf hleaf
  have hentry := (h.grown hv).leaves k hk
  rw [hleaf] at hentry
  cases hentry
  exact ⟨s.ft[k], List.getElem?_eq_getElem hk, rfl⟩

/-- The pointer is off the root after a move to a child (R180). -/
theorem Inv.status_moved {s : State} (h : Inv s) (hv : s.treeValid = true) {k : Nat} {wt : Word} {l r : NodeIdx}
    (hk : s.nodes[k]? = some (.internal wt l r)) (b : Bit) :
    (regValue .status { s with decptr := if b then r else l }).toNat / 2 ^ 8 % 2 = 0 := by
  have hlt := (h.shape hv).child_lt hk b
  have hle := (h.shape hv).le_root hk
  exact (status_decAtRoot { s with decptr := if b then r else l } hv).trans (if_neg (hlt.trans_le hle).ne)

/-- The pointer is at the root, and OSYMS not empty, after a symbol was emitted (R180). -/
theorem status_emitted {s : State} (hsmall : s.ft.length ≤ 32768) (hv : s.treeValid = true) (sym : Sym) :
    (regValue .status { pushSym sym s with decptr := s.rootPtr }).toNat / 2 ^ 8 % 2 = 1 ∧
      (regValue .status { pushSym sym s with decptr := s.rootPtr }).toNat / 2 ^ 10 % 2 = 1 := by
  obtain ⟨-, -, -, -, -, hosyms, -⟩ := status_fields { pushSym sym s with decptr := s.rootPtr }
  exact ⟨(status_decAtRoot { pushSym sym s with decptr := s.rootPtr } hv).trans
    (if_pos (State.rootPtr_toNat hsmall)), hosyms.trans (if_pos (by simp))⟩

/-- Settles O46: each guard is reached past the ones before it; then the child that the bit selects exists, and is an
internal node or a leaf. -/
theorem decodeBitBehaviour : Obligations.DecodeBitBehaviour := by
  intro s bv h
  refine ⟨fun hphase => ?_, fun hphase hbv => ?_, fun hphase hbv hn => ?_, fun hphase hbv hn => ?_,
    wordB_toNat 0x08#8 bv⟩
  · exact exec_decBit_of_noTree (eq_false_of_ne_true (mt State.treeValid_iff.1 hphase))
  · exact exec_decBit_of_invalidBit (State.treeValid_iff.2 hphase) hbv
  · obtain ⟨b, rfl⟩ := exists_bvOf hbv
    exact exec_decBit_of_single (State.treeValid_iff.2 hphase) hn b
  · have hv := State.treeValid_iff.2 hphase
    obtain ⟨b, rfl⟩ := exists_bvOf hbv
    obtain ⟨wt, l, r, hp⟩ := h.pointer hv hn
    have htarget : ∀ nd, s.nodes[(if b then r else l).toNat]? = some nd →
        decTarget b s = some (if b then r else l, nd) := fun nd hnd => decTarget_some.2 ⟨wt, l, r, hp, rfl, hnd⟩
    refine ⟨wt, l, r, hp, ?_⟩
    rw [ite_bvOf]
    refine ⟨h.children hv hp b, fun wc lc rc hc => ?_, fun sym wc hc => ?_⟩
    · exact ⟨exec_decBit_internal hv hn (htarget _ hc), h.status_moved hv hp b⟩
    · refine ⟨h.entry_of_leaf hv hc, exec_decBit_of_full hv hn (htarget _ hc), fun hroom => ?_⟩
      exact ⟨_, exec_decBit_leaf hv hn (htarget _ hc) (Nat.lt_of_le_of_ne h.symsFit hroom), rfl,
        State.rootPtr_toNat h.small, status_emitted h.small hv sym⟩

/-! ### DEC_END and DEC_RST (R182, R183) -/

theorem exec_decEnd_of_noTree {s : State} (hv : s.treeValid = false) :
    exec .decEnd s = .next (errorEntry .sequenceError (encode .decEnd) s) := by
  simp [exec, execDecEnd, hv, raise]

theorem exec_decEnd_of_offRoot {s : State} (hv : s.treeValid = true) (hp : s.decptr.toNat ≠ s.rootIdx) :
    exec .decEnd s = .next (errorEntry .truncatedOrCorruptStream (encode .decEnd) s) := by
  simp [exec, execDecEnd, hv, hp, raise]

/-- Settles O47: the two guards in order; with one entry the pointer is always at the root. -/
theorem decodeEndBehaviour : Obligations.DecodeEndBehaviour := by
  refine fun s => ⟨fun hphase => ?_, fun hphase hp => ?_, fun hphase hp => ?_, fun h hphase hn => ?_, by decide⟩
  · exact exec_decEnd_of_noTree (State.treeValid_false_iff.2 hphase)
  · exact exec_decEnd_of_offRoot (State.treeValid_iff.2 hphase) hp
  · exact exec_decEnd_root (State.treeValid_iff.2 hphase) hp
  · have hv := State.treeValid_iff.2 hphase
    exact exec_decEnd_root hv (h.pointer_of_single hv hn)

theorem exec_decRst_of_noTree {s : State} (hv : s.treeValid = false) :
    exec .decRst s = .next (errorEntry .sequenceError (encode .decRst) s) := by
  simp [exec, execDecRst, hv, raise]

theorem exec_decRst_of_tree {s : State} (hv : s.treeValid = true) :
    exec .decRst s = .next { s with decptr := s.rootPtr } := by
  simp [exec, execDecRst, hv]

/-- Settles O48: the root's index fits DECPTR, which then shows DEC_AT_ROOT. -/
theorem decodeResetBehaviour : Obligations.DecodeResetBehaviour := by
  refine fun s h => ⟨fun hphase => ?_, fun hphase => ?_, by decide⟩
  · exact exec_decRst_of_noTree (State.treeValid_false_iff.2 hphase)
  · have hv := State.treeValid_iff.2 hphase
    have hroot := State.rootPtr_toNat h.small
    exact ⟨_, exec_decRst_of_tree hv, rfl, hroot,
      (status_decAtRoot { s with decptr := s.rootPtr } hv).trans (if_pos hroot)⟩

end Sys2Proof.Machine
end

section
/-! PROOFS. Streams of bits (44_decoder.md R186, R187): the DEC_BITs of a path to an internal node move the pointer
there and emit nothing; every bit string is a sequence of codes and then such a path, by induction over its bits. -/

namespace Sys2Proof.Machine

/-! ### Paths to internal nodes -/

/-- A path to an internal node starts at one. -/
theorem Path.start_internal {nodes : List Node} {v x : Nat} {c : Code} {wt : Word} {l r : NodeIdx}
    (h : Path nodes v c x) (hx : nodes[x]? = some (.internal wt l r)) :
    ∃ wv lv rv, nodes[v]? = some (.internal wv lv rv) := by
  cases h with
  | here => exact ⟨wt, l, r, hx⟩
  | left hv _ => exact ⟨_, _, _, hv⟩
  | right hv _ => exact ⟨_, _, _, hv⟩

/-- R181: the DEC_BITs of a path from the pointer to an internal node take the pointer along it and emit nothing. -/
theorem execAll_decBits_internalPath {u : State} {c : Code} {x : Nat} {wt : Word} {l r : NodeIdx}
    (hv : u.treeValid = true) (hn : u.n ≠ 1) (hx : u.nodes[x]? = some (.internal wt l r))
    (h : Path u.nodes u.decptr.toNat c x) :
    ∃ y : NodeIdx, y.toNat = x ∧ execAll (decBits c) u = .next { u with decptr := y } := by
  induction c generalizing u with
  | nil => exact ⟨u.decptr, h.nil_inv, rfl⟩
  | cons b c ih =>
    obtain ⟨wp, lp, rp, hp, hrest⟩ := h.cons_inv
    obtain ⟨wc, lc, rc, hc⟩ := hrest.start_internal hx
    have ht := decTarget_some.2 ⟨wp, lp, rp, hp, rfl, hc⟩
    obtain ⟨y, hy, hexec⟩ := ih (u := { u with decptr := if b then rp else lp }) hv hn hx hrest
    exact ⟨y, hy, (execAll_cons_next (exec_decBit_internal hv hn ht)).trans hexec⟩

section Shape
variable {n : Nat} {nodes : List Node}

/-- A path from the root that stays there is empty. -/
theorem TreeShape.path_eq_nil_iff (t : TreeShape n nodes) {c : Code} {x : Nat} (h : Path nodes (2 * n - 2) c x) :
    c = [] ↔ x = 2 * n - 2 := by
  constructor
  · rintro rfl
    exact h.nil_inv.symm
  · intro hx
    have hdown := t.path_descends h
    exact List.length_eq_zero_iff.1 (by omega)

/-- Below every node there is a leaf. -/
theorem TreeShape.exists_leaf_below (t : TreeShape n nodes) (v : Nat) (hv : v < nodes.length) :
    ∃ i d, i < n ∧ Path nodes v d i := by
  induction v using Nat.strong_induction_on with
  | _ v ih =>
    by_cases hvn : v < n
    · exact ⟨v, [], hvn, .here v⟩
    · obtain ⟨wt, l, r, hinner, hl, -⟩ := t.internal_of_ge v (by omega) hv
      obtain ⟨i, d, hi, hd⟩ := ih l.toNat hl (by omega)
      exact ⟨i, false :: d, hi, .left hinner hd⟩

/-- CODES[i] is the path from the root to leaf i (R141). -/
theorem TreeShape.code_of_path (t : TreeShape n nodes) {codes : List Code} (hcodes : genCodes n nodes = some codes)
    {i : Nat} (hi : i < n) {c : Code} (h : Path nodes (2 * n - 2) c i) : codes[i]? = some c := by
  obtain ⟨hlen, hpaths⟩ := t.codes_path hcodes
  have hget := List.getElem?_eq_getElem (hlen ▸ hi : i < codes.length)
  rw [hget, t.path_unique (hpaths i _ hget).2 h]

/-- R187: a path to an internal node is the beginning of a code, which goes on from there to a leaf. -/
theorem TreeShape.properPrefix_of_internal (t : TreeShape n nodes) {codes : List Code}
    (hcodes : genCodes n nodes = some codes) {c : Code} {x : Nat} {wt : Word} {l r : NodeIdx}
    (hx : nodes[x]? = some (.internal wt l r)) (h : Path nodes (2 * n - 2) c x) : ∃ d ∈ codes, c <+: d ∧ c ≠ d := by
  obtain ⟨i, d, hi, hd⟩ := t.exists_leaf_below x (TreeShape.lt_of_getElem? hx)
  have hge := t.ge_of_internal hx
  refine ⟨c ++ d, List.mem_of_getElem? (t.code_of_path hcodes hi (h.append hd)), List.prefix_append c d, ?_⟩
  exact fun heq => hd.ne_nil (by omega) (List.self_eq_append_right.1 heq)

/-- R187: a bit string is codes, whose entries are `js`, and then a path to an internal node. The next bit either
completes a code or goes on to an internal node, because every internal node has both children. -/
theorem TreeShape.exists_parse (t : TreeShape n nodes) {codes : List Code} (hcodes : genCodes n nodes = some codes)
    (hn : 2 ≤ n) (bits : Code) :
    ∃ (js : List Nat) (cs : List Code) (rem : Code) (x : Nat) (wt : Word) (l r : NodeIdx),
      js.map (fun j => codes[j]?) = cs.map some ∧ js.length ≤ bits.length ∧ bits = cs.flatten ++ rem ∧
      Path nodes (2 * n - 2) rem x ∧ nodes[x]? = some (.internal wt l r) := by
  have hlen := t.length_eq
  obtain ⟨wr, lr, rr, hroot, -⟩ := t.internal_of_ge (2 * n - 2) (by omega) (by omega)
  induction bits using List.reverseRecOn with
  | nil => exact ⟨[], [], [], 2 * n - 2, wr, lr, rr, rfl, le_rfl, rfl, .here _, hroot⟩
  | append_singleton bits b ih =>
    obtain ⟨js, cs, rem, x, wt, l, r, hcs, hjs, rfl, hrem, hx⟩ := ih
    have hnext : Path nodes (2 * n - 2) (rem ++ [b]) (if b then r else l).toNat :=
      hrem.append (.cons_of hx (.here _))
    have hlonger : (js ++ [(if b then r else l).toNat]).length ≤ (cs.flatten ++ rem ++ [b]).length := by
      simpa only [List.length_append, List.length_singleton] using Nat.succ_le_succ hjs
    by_cases hleaf : (if b then r else l).toNat < n
    · have hcode := t.code_of_path hcodes hleaf hnext
      exact ⟨js ++ [(if b then r else l).toNat], cs ++ [rem ++ [b]], [], 2 * n - 2, wr, lr, rr,
        by simp only [List.map_append, hcs, List.map_cons, hcode, List.map_nil],
        hlonger, by simp, .here _, hroot⟩
    · obtain ⟨wc, lc, rc, hc, -⟩ := t.internal_of_ge _ (Nat.not_lt.1 hleaf)
        ((t.child_lt hx b).trans (TreeShape.lt_of_getElem? hx))
      exact ⟨js, cs, rem ++ [b], _, wc, lc, rc, hcs, (by simp : js.length ≤ _).trans hlonger, by simp, hnext, hc⟩

end Shape

/-! ### Sequences of codes (R186) -/

/-- Codes of entries are paths to the leaves of the entries' symbols (R122, R141). -/
theorem Inv.leafPaths_of_codes {u : State} (h : Inv u) (hv : u.treeValid = true) {codes : List Code}
    (hcodes : genCodes u.n u.nodes = some codes) {js : List Nat} {es : List Entry} {cs : List Code}
    (hes : js.map (fun j => u.ft[j]?) = es.map some) (hcs : js.map (fun j => codes[j]?) = cs.map some) :
    List.Forall₂ (LeafPath u.nodes u.rootIdx) cs (es.map Entry.sym) := by
  induction js generalizing es cs with
  | nil =>
    obtain rfl : es = [] := by simpa using hes
    obtain rfl : cs = [] := by simpa using hcs
    exact .nil
  | cons j js ih =>
    obtain ⟨e, es, rfl, he, hes'⟩ := List.map_eq_cons_iff.1 hes.symm
    obtain ⟨c, cs, rfl, hc, hcs'⟩ := List.map_eq_cons_iff.1 hcs.symm
    obtain ⟨hj, rfl⟩ := List.getElem?_eq_some_iff.1 he.symm
    obtain ⟨-, hpath⟩ := ((h.shape hv).codes_path hcodes).2 j c hc.symm
    exact .cons ⟨j, _, (h.grown hv).leaves j hj, hpath⟩ (ih hes'.symm hcs'.symm)

/-- R186: from the root the DEC_BITs of codes emit the symbols of their entries in order and return to the root. -/
theorem Inv.execAll_decBits_codes {u : State} (h : Inv u) (hv : u.treeValid = true) (hn : 2 ≤ u.n)
    (hptr : u.decptr.toNat = u.rootIdx) {codes : List Code} (hcodes : genCodes u.n u.nodes = some codes)
    {js : List Nat} {es : List Entry} {cs : List Code} (hes : js.map (fun j => u.ft[j]?) = es.map some)
    (hcs : js.map (fun j => codes[j]?) = cs.map some) (hroom : u.osyms.length + js.length ≤ u.cfg.osymsCap) :
    execAll (decBits cs.flatten) u = .next { u with osyms := u.osyms ++ es.map Entry.sym } := by
  have hinner : ∀ sym wt, u.nodes[u.decptr.toNat]? ≠ some (.leaf sym wt) := by
    obtain ⟨wt, l, r, hp⟩ := h.pointer hv (by omega)
    simp [hp]
  have hlen : js.length = es.length := by simpa using congrArg List.length hes
  exact execAll_decBits_leafPaths hv (by omega)
    (BitVec.eq_of_toNat_eq (hptr.trans (State.rootPtr_toNat h.small).symm)) hinner (by simpa [← hlen] using hroom)
    (hptr ▸ h.leafPaths_of_codes hv hcodes hes hcs)

/-- Settles O50: a code is a sequence of one; a proper non-empty beginning of it ends at an internal node below the
root, since the path to the leaf goes on there. -/
theorem codesAreRecognised : Obligations.CodesAreRecognised := by
  intro u codes h hphase hn hptr hcodes
  have hv := State.treeValid_iff.2 hphase
  have t := h.shape hv
  refine ⟨fun i e c he hc hroom => ⟨?_, fun p q hpq hp hq => ?_⟩, fun js es cs hes hcs hroom => ?_⟩
  · simpa using h.execAll_decBits_codes hv hn hptr hcodes (js := [i]) (es := [e]) (cs := [c])
      (by simpa using he) (by simpa using hc) hroom
  · subst hpq
    obtain ⟨-, hpath⟩ := (t.codes_path hcodes).2 i _ hc
    obtain ⟨x, hpx, hqx⟩ := hpath.split
    obtain ⟨b, q, rfl⟩ := List.exists_cons_of_ne_nil hq
    obtain ⟨wt, l, r, hx, -⟩ := hqx.cons_inv
    obtain ⟨y, rfl, hexec⟩ := execAll_decBits_internalPath hv (by omega) hx (hptr ▸ hpx)
    exact ⟨y, hexec, mt (t.path_eq_nil_iff hpx).2 hp, wt, l, r, hx⟩
  · rw [execAll_append_next (h.execAll_decBits_codes hv hn hptr hcodes hes hcs hroom)]
    exact execAll_cons_next (exec_decEnd_root (u := { u with osyms := u.osyms ++ es.map Entry.sym }) hv hptr)

/-! ### Every bit string (R187) -/

/-- An index that has a code has an entry. -/
theorem Inv.exists_entries_of_codes {u : State} (h : Inv u) (hv : u.treeValid = true) {codes : List Code}
    (hcodes : genCodes u.n u.nodes = some codes) {js : List Nat} {cs : List Code}
    (hcs : js.map (fun j => codes[j]?) = cs.map some) :
    ∃ es : List Entry, js.map (fun j => u.ft[j]?) = es.map some := by
  obtain ⟨es, hes⟩ := allSome_of_forall (l := js.map fun j => u.ft[j]?) (by
    intro o ho
    obtain ⟨j, hj, rfl⟩ := List.mem_map.1 ho
    obtain ⟨c, -, hc⟩ := List.mem_map.1 (hcs ▸ List.mem_map_of_mem hj)
    obtain ⟨hjn, -⟩ := ((h.shape hv).codes_path hcodes).2 j c hc.symm
    exact ⟨u.ft[j], List.getElem?_eq_getElem hjn⟩)
  exact ⟨es, allSome_eq_some.1 hes⟩

/-- Settles O51: the codes of the string emit their symbols (R186), then its rest moves the pointer to an internal node,
which is the root exactly when the rest is empty. -/
theorem everyBitStringIsCodesAndAProperPrefix : Obligations.EveryBitStringIsCodesAndAProperPrefix := by
  intro u codes bits h hphase hn hptr hcodes hroom
  have hv := State.treeValid_iff.2 hphase
  have t := h.shape hv
  obtain ⟨js, cs, rem, x, wt, l, r, hcs, hjs, rfl, hrem, hx⟩ := t.exists_parse hcodes hn bits
  obtain ⟨es, hes⟩ := h.exists_entries_of_codes hv hcodes hcs
  have hwhole := h.execAll_decBits_codes hv hn hptr hcodes hes hcs (by omega)
  obtain ⟨y, rfl, hrest⟩ := execAll_decBits_internalPath (u := { u with osyms := u.osyms ++ es.map Entry.sym }) hv
    (Nat.ne_of_gt hn) hx (hptr ▸ hrem)
  have hexec : execAll (decBits (cs.flatten ++ rem)) u =
      .next { u with osyms := u.osyms ++ es.map Entry.sym, decptr := y } := by
    rw [decBits_append, execAll_append_next hwhole, hrest]
  refine ⟨js, es, cs, rem, y, hes, hcs, rfl, t.properPrefix_of_internal hcodes hx hrem, hexec,
    t.path_eq_nil_iff hrem, fun hne => ?_, fun bv => exec_decBit_of_invalidBit hv⟩
  rw [execAll_append_next hexec]
  exact execAll_cons_next (exec_decEnd_of_offRoot hv (mt (t.path_eq_nil_iff hrem).2 hne))

end Sys2Proof.Machine
end

section
/-! PROOFS. The control commands NOP, CLRERR and FIFO_CLR (45_control.md R200, R202, R203), and the hardware reset as
SRESET (R201, R250). -/

namespace Sys2Proof.Machine

/-! ### CLRERR (R202) -/

/-- CLRERR's word executes whether an error is recorded or not (R225). -/
theorem execWord_clrerrWord (s : State) : execWord clrerrWord s = exec .clrerr s := by
  cases herr : s.err with
  | false => exact execWord_of_decode herr (decodeEncodeRoundTrip .clrerr)
  | true => simp [execWord, herr, show clrerrWord ≠ sresetWord by decide]

/-- With no error recorded the four error registers hold their cleared values already (R30, R31). -/
theorem Inv.errorReturn_eq_self {s : State} (h : Inv s) (herr : s.err = false) : Machine.errorReturn s = s := by
  obtain ⟨hecode, herrcmd, herrarg⟩ := h.noErrorClear herr
  cases s
  cases herr
  cases hecode
  cases herrcmd
  cases herrarg
  rfl

/-- An error entry changed the four error registers only, so the return from it depends on nothing else of it (R224). -/
theorem errorReturn_errorEntry (c : ECode) (w : Word) (s : State) : errorReturn (errorEntry c w s) = errorReturn s := rfl

/-- A command that ends with an error newly recorded ended in an error entry (R226). -/
theorem exec_errorEntry_of_newError {i : Instr} {s t : State} (herr : s.err = false) (hexec : exec i s = .next t)
    (hnew : t.err = true) : ∃ c, t = errorEntry c (encode i) s := by
  rcases exec_next hexec with ⟨c, -, ht⟩ | heffect
  · exact ⟨c, ht⟩
  · exact absurd (heffect.err_false herr) (ne_false_of_eq_true hnew)

/-- Settles O28: the four registers are clear while ERR = 0, and a failed command changed nothing but them. -/
theorem clearErrorRegisters : Obligations.ClearErrorRegisters := by
  refine fun s => ⟨rfl, by decide, execWord_clrerrWord s, fun h herr => ?_⟩
  have hself : errorReturn s = s := h.errorReturn_eq_self herr
  refine ⟨congrArg Host.Outcome.next hself, fun i t hexec hnew => ?_⟩
  obtain ⟨c, rfl⟩ := exec_errorEntry_of_newError herr hexec hnew
  exact congrArg Host.Outcome.next ((errorReturn_errorEntry c (encode i) s).trans hself)

/-! ### NOP and the hardware reset (R200, R250) -/

/-- Settles O24. -/
theorem nopHasNoEffect : Obligations.NopHasNoEffect := fun _ => ⟨rfl, by decide⟩

/-- Settles O26: the reset input, taken from the pending list, is the core's reset, as SRESET is. -/
theorem hardwareResetEqualsSoftReset : Obligations.HardwareResetEqualsSoftReset := by
  intro s abandoned rest hpending
  calc step s = runBusOp (.hwReset abandoned) (advance rest s) := step_of_pending hpending
    _ = .next (coreReset (advance rest s)) := rfl
    _ = exec .sreset (advance rest s) := rfl

/-! ### FIFO_CLR (R203) -/

/-- SEL[0] as a number. -/
theorem sel_bit0_iff (sel : BitVec 2) : sel.getLsbD 0 = true ↔ sel.toNat % 2 = 1 := by
  rw [BitVec.getLsbD, Nat.testBit_zero, decide_eq_true_iff]

/-- SEL[1] as a number: no bit stands above it. -/
theorem sel_bit1_iff (sel : BitVec 2) : sel.getLsbD 1 = true ↔ sel.toNat / 2 = 1 := by
  have hsel := sel.isLt
  rw [BitVec.getLsbD, Nat.testBit_succ, Nat.testBit_zero, decide_eq_true_iff]
  omega

/-- Settles O29: the two bits of SEL as numbers; STATUS shows an emptied FIFO as empty. -/
theorem fifoClear : Obligations.FifoClear := by
  intro s sel
  have hexec : exec (.fifoClr sel) s = .next { s with
      obits := if sel.toNat % 2 = 1 then [] else s.obits, osyms := if sel.toNat / 2 = 1 then [] else s.osyms } := by
    simp only [exec, execFifoClr, sel_bit0_iff, sel_bit1_iff]
  refine ⟨hexec, rfl, wordM_toNat 0x0B#8 sel, fun t ht => ?_⟩
  obtain ⟨-, -, -, -, hobits, hosyms, -⟩ := status_fields t
  obtain rfl := Host.Outcome.next.inj (hexec.symm.trans ht)
  exact ⟨fun h0 => hobits.trans (by simp [h0]), fun h1 => hosyms.trans (by simp [h1])⟩

end Sys2Proof.Machine
end

section
/-! PROOFS. Errors (60_exceptions.md): error entry (R224), the sticky discard (R225), precision (R222, R226), and that in
each command the first failing check of the summary table of R227 decides the code. -/

namespace Sys2Proof.Machine

/-! ### Error entry (R224) -/

/-- Settles O19: the four writes are the definition; STATUS shows ERR and ECODE. -/
theorem errorEntryWritesFourRegisters : Obligations.ErrorEntryWritesFourRegisters := by
  intro c w s
  obtain ⟨-, herr, hecode, -⟩ := status_fields (errorEntry c w s)
  exact ⟨rfl, fun i hw => hw ▸ rfl, rfl, rfl, herr, hecode⟩

/-! ### The sticky discard (R225) -/

/-- SRESET's word executes whether an error is recorded or not (R225). -/
theorem execWord_sresetWord (s : State) : execWord sresetWord s = exec .sreset s := by
  cases herr : s.err with
  | false => exact execWord_of_decode herr (decodeEncodeRoundTrip .sreset)
  | true => simp [execWord, herr]

theorem step_of_cmdWrite {s : State} {a : Offset} {w : Word} {rest : List BusOp}
    (hpending : s.pending = .write a w :: rest) (hreg : regAt a = some .cmd) : step s = execWord w (advance rest s) :=
  (step_of_pending hpending).trans (memWrite_of_cmd hreg)

/-- Settles O8: the step executes the word, which the error filter of R80 lets through or discards. -/
theorem stickyErrorDiscardsCommands : Obligations.StickyErrorDiscardsCommands := by
  intro s a w rest hpending hreg herr
  rw [step_of_cmdWrite hpending hreg]
  refine ⟨fun hsreset hclrerr => ?_, fun hw => ?_, fun hw => ?_⟩
  · exact execWord_of_discarded herr hsreset hclrerr
  · subst hw
    exact execWord_sresetWord (advance rest s)
  · subst hw
    exact execWord_clrerrWord (advance rest s)

/-! ### Precision (R222, R226) -/

/-- A word that records an error while none is recorded does it by an error entry for that word. -/
theorem CmdEffect.errorEntry_of_newError {w : Word} {s t : State} (herr : s.err = false) (hnew : t.err = true)
    (h : CmdEffect w s t) : ∃ c, c ≠ .noError ∧ t = errorEntry c w s := by
  rcases h with ⟨hset, -⟩ | ⟨hset, -⟩ | ⟨hset, -⟩ | ⟨-, -, ht⟩ | ⟨-, i, hdecode, hexec⟩
  · exact absurd hset (ne_true_of_eq_false herr)
  · exact absurd hset (ne_true_of_eq_false herr)
  · exact absurd hset (ne_true_of_eq_false herr)
  · exact ⟨.illegalCommand, by decide, ht⟩
  · rcases exec_next hexec with ⟨c, hc, ht⟩ | heffect
    · exact ⟨c, hc, encodeOfDecodedWord w i hdecode ▸ ht⟩
    · exact absurd hnew (ne_true_of_eq_false (heffect.err_false herr))

/-- A host operation that records an error while none is recorded is a write to CMD (R222). -/
theorem OpEffect.cmdWrite_of_newError {op : BusOp} {s t : State} (herr : s.err = false) (hnew : t.err = true)
    (h : OpEffect op s t) : ∃ a w, op = .write a w ∧ regAt a = some .cmd ∧ CmdEffect w s t := by
  cases op with
  | read a =>
    obtain rfl := h
    obtain ⟨hkept, -⟩ := memReadEffect_error a s
    exact absurd hnew (ne_true_of_eq_false (hkept.trans herr))
  | hwReset abandoned =>
    obtain rfl := h
    cases hnew
  | write a w =>
    rcases h with ⟨hreg, hcmd⟩ | ⟨-, rfl⟩ | ⟨-, rfl⟩ | ⟨-, -, -, rfl⟩
    · exact ⟨a, w, rfl, hreg, hcmd⟩
    · exact absurd hnew (ne_true_of_eq_false herr)
    · exact absurd hnew (ne_true_of_eq_false herr)
    · exact absurd hnew (ne_true_of_eq_false herr)

/-- Settles O20: of the steps only a command word's records an error, and it does so by error entry. -/
theorem errorsArePreciseAndComeFromCommands : Obligations.ErrorsArePreciseAndComeFromCommands := by
  intro s t herr hstep hnew
  rcases step_next hstep with ⟨-, rfl⟩ | ⟨op, rest, hpending, ho⟩
  · exact absurd hnew (ne_true_of_eq_false herr)
  · obtain ⟨a, w, rfl, hreg, hcmd⟩ := ho.cmdWrite_of_newError (s := advance rest s) herr hnew
    obtain ⟨c, hc, rfl⟩ := hcmd.errorEntry_of_newError (s := advance rest s) herr hnew
    exact ⟨a, w, rest, c, hpending, hreg, hc, rfl⟩

/-! ### A list of checks (R227) -/

/-- The first failing check of the list, if one fails, is the error that the command raises; if none fails it raises
none. -/
structure DecidedBy (checks : List (Bool × ECode)) (i : Instr) (s : State) : Prop where
  fails : ∀ c, firstFailing checks = some c → exec i s = .next (errorEntry c (encode i) s)
  completes : firstFailing checks = none → ∃ t, exec i s = .next t ∧ t.err = false

section DecidedBy
variable {checks : List (Bool × ECode)} {i : Instr} {s t : State} {b : Bool} {p : Prop} {c : ECode}

@[simp] theorem firstFailing_cons_true : firstFailing ((true, c) :: checks) = some c := rfl

@[simp] theorem firstFailing_cons_false : firstFailing ((false, c) :: checks) = firstFailing checks := rfl

theorem decidedBy_nil (h : exec i s = .next t) (herr : t.err = false) : DecidedBy [] i s where
  fails _ hc := by cases hc
  completes _ := ⟨t, h, herr⟩

/-- A check that fails exactly when `p` holds, before the other checks. -/
theorem decidedBy_cons (hb : b = true ↔ p) (hfail : p → exec i s = .next (errorEntry c (encode i) s))
    (hpass : ¬p → DecidedBy checks i s) : DecidedBy ((b, c) :: checks) i s := by
  cases b with
  | true => exact ⟨by simpa using hfail (hb.1 rfl), by simp⟩
  | false =>
    obtain ⟨hfails, hcompletes⟩ := hpass (mt hb.2 Bool.false_ne_true)
    exact ⟨by simpa using hfails, by simpa using hcompletes⟩

/-- The check "PHASE is neither BUILT nor CODED", which comes first in four commands. -/
theorem decidedBy_treeCheck (hfail : s.treeValid = false → exec i s = .next (errorEntry .sequenceError (encode i) s))
    (hpass : s.treeValid = true → DecidedBy checks i s) :
    DecidedBy ((decide (s.phase = .empty ∨ s.phase = .loading), .sequenceError) :: checks) i s :=
  decidedBy_cons (decide_eq_true_iff.trans State.treeValid_false_iff.symm) hfail
    fun hv => hpass (eq_true_of_ne_false hv)

end DecidedBy

/-! ### The checks of each command (R227) -/

theorem decidedBy_ftAppend {s : State} (herr : s.err = false) (sym : Sym) :
    DecidedBy (guardTable (.ftAppend sym) s) (.ftAppend sym) s := by
  obtain ⟨hclosed, hzero, hpresent, hfull, happend, -⟩ := tableAppend s sym
  refine decidedBy_cons decide_eq_true_iff hclosed fun hopen => ?_
  refine decidedBy_cons decide_eq_true_iff (hzero hopen) fun hcount => ?_
  refine decidedBy_cons (decide_eq_true_iff.trans List.mem_map) (hpresent hopen hcount) fun hnew => ?_
  exact decidedBy_cons decide_eq_true_iff (hfull hopen hcount hnew)
    fun hroom => decidedBy_nil (happend hopen hcount hnew hroom) herr

/-- The table is empty exactly in EMPTY, where BUILD raises EMPTY_TABLE (R32). -/
theorem Inv.n_eq_zero_iff {s : State} (h : Inv s) : s.n = 0 ↔ s.phase = .empty :=
  List.length_eq_zero_iff.trans h.emptyIff.symm

theorem Inv.decidedBy_build {s : State} (h : Inv s) (herr : s.err = false) :
    DecidedBy (guardTable .build s) .build s := by
  obtain ⟨hempty, hover, -⟩ := buildBehaviour s h
  refine decidedBy_cons (decide_eq_true_iff.trans h.n_eq_zero_iff) hempty fun hphase => ?_
  exact decidedBy_cons decide_eq_true_iff (hover hphase)
    fun htotal => decidedBy_nil (exec_build_of_effect ⟨hphase, Nat.not_lt.1 htotal, rfl⟩) herr

theorem Inv.decidedBy_gencodes {s : State} (h : Inv s) (herr : s.err = false) :
    DecidedBy (guardTable .gencodes s) .gencodes s := by
  refine decidedBy_treeCheck exec_gencodes_of_noTree fun hv => ?_
  obtain ⟨codes, hcodes, -⟩ := (h.shape hv).genCodes_spec
  exact decidedBy_nil (exec_gencodes_of_codes hv hcodes) herr

/-- The check "OBITS full" over the whole table is the check of the symbol's own code, because no other entry has the
symbol (R34). -/
theorem Inv.obitsFull_iff {s : State} (h : Inv s) {sym : Sym} {j : Nat} {code : Code}
    (hj : lookupSym sym s.ft = some j) (hcode : s.codes[j]? = some code) :
    ((s.ft.zip s.codes).any fun p =>
      decide (p.1.sym = sym ∧ s.cfg.obitsCap < s.obits.length + p.2.length)) = true ↔
      s.cfg.obitsCap < s.obits.length + code.length := by
  simp only [List.any_eq_true, decide_eq_true_iff, List.mem_iff_getElem?, List.getElem?_zip_eq_some]
  constructor
  · rintro ⟨p, ⟨k, he, hk⟩, rfl, hover⟩
    obtain rfl : k = j := Option.some.inj ((h.lookupSym_entry he).symm.trans hj)
    rwa [Option.some.inj (hcode.symm.trans hk)]
  · intro hover
    obtain ⟨hlt, hsym⟩ := lookupSym_some hj
    exact ⟨(s.ft[j], code), ⟨j, List.getElem?_eq_getElem hlt, hcode⟩, hsym, hover⟩

theorem Inv.decidedBy_encSym {s : State} (h : Inv s) (herr : s.err = false) (sym : Sym) :
    DecidedBy (guardTable (.encSym sym) s) (.encSym sym) s := by
  refine decidedBy_cons decide_eq_true_iff
    (fun hphase => exec_encSym_of_notCoded (eq_false_of_ne_true (mt State.codesValid_iff.1 hphase))) fun hcoded => ?_
  have hv := State.codesValid_iff.2 (not_not.1 hcoded)
  refine decidedBy_cons (decide_eq_true_iff.trans lookupSym_none.symm) (exec_encSym_of_unknown hv) fun hknown => ?_
  obtain ⟨j, hj⟩ := Option.ne_none_iff_exists'.1 hknown
  obtain ⟨hlt, -⟩ := lookupSym_some hj
  obtain ⟨code, hcode⟩ := h.code_at hv hlt
  exact decidedBy_cons (h.obitsFull_iff hj hcode) (exec_encSym_of_full hv hj hcode)
    fun hroom => decidedBy_nil (exec_encSym_code hv hj hcode (Nat.not_lt.1 hroom)) herr

/-- "Leaf reached and OSYMS full", for the node that a step of the decoder would move to. -/
theorem leafReachedFull_bvOf {s : State} {b : Bit} {c : NodeIdx} {nd : Node} (ht : decTarget b s = some (c, nd)) :
    leafReachedFull (bvOf b) s = true ↔ (∃ sym wt, nd = .leaf sym wt) ∧ s.osyms.length = s.cfg.osymsCap := by
  obtain ⟨wt, l, r, hp, rfl, hnd⟩ := decTarget_some.1 ht
  rw [leafReachedFull, hp]
  dsimp only
  rw [ite_bvOf, hnd]
  cases nd with
  | leaf sym wt => simp
  | internal wt l r => simp

/-- The last check of DEC_BIT, past the ones on the tree and on the bit. -/
theorem Inv.decidedBy_leafReachedFull {s : State} (h : Inv s) (herr : s.err = false) (hv : s.treeValid = true)
    (hn : s.n ≠ 1) (b : Bit) :
    DecidedBy [(leafReachedFull (bvOf b) s, .outputFull)] (.decBit (bvOf b)) s := by
  obtain ⟨c, nd, ht⟩ := h.target hv hn b
  refine decidedBy_cons (leafReachedFull_bvOf ht) ?_ fun hroom => ?_
  · rintro ⟨⟨sym, wt, rfl⟩, hfull⟩
    exact exec_decBit_of_full hv hn ht hfull
  · cases nd with
    | leaf sym wt =>
      have hlt := Nat.lt_of_le_of_ne h.symsFit fun hfull => hroom ⟨⟨sym, wt, rfl⟩, hfull⟩
      exact decidedBy_nil (exec_decBit_leaf hv hn ht hlt) herr
    | internal wt l r => exact decidedBy_nil (exec_decBit_internal hv hn ht) herr

theorem Inv.decidedBy_decBit {s : State} (h : Inv s) (herr : s.err = false) (bv : BitVec 8) :
    DecidedBy (guardTable (.decBit bv) s) (.decBit bv) s := by
  refine decidedBy_treeCheck exec_decBit_of_noTree fun hv => ?_
  refine decidedBy_cons decide_eq_true_iff (exec_decBit_of_invalidBit hv) fun hbv => ?_
  obtain ⟨b, rfl⟩ := exists_bvOf (Nat.not_lt.1 hbv)
  exact decidedBy_cons decide_eq_true_iff (fun hn => exec_decBit_of_single hv hn b)
    fun hn => h.decidedBy_leafReachedFull herr hv hn b

theorem decidedBy_decEnd {s : State} (herr : s.err = false) : DecidedBy (guardTable .decEnd s) .decEnd s :=
  decidedBy_treeCheck exec_decEnd_of_noTree fun hv =>
    decidedBy_cons decide_eq_true_iff (exec_decEnd_of_offRoot hv)
      fun hroot => decidedBy_nil (exec_decEnd_root hv (not_not.1 hroot)) herr

theorem decidedBy_decRst {s : State} (herr : s.err = false) : DecidedBy (guardTable .decRst s) .decRst s :=
  decidedBy_treeCheck exec_decRst_of_noTree fun hv => decidedBy_nil (exec_decRst_of_tree hv) herr

/-- Within the invariant every command's answer is decided by its row of the summary table (R227). -/
theorem Inv.decidedBy_guardTable {s : State} (h : Inv s) (herr : s.err = false) (i : Instr) :
    DecidedBy (guardTable i s) i s := by
  cases i with
  | nop => exact decidedBy_nil rfl herr
  | sreset => exact decidedBy_nil rfl rfl
  | clrerr => exact decidedBy_nil rfl rfl
  | ftClear => exact decidedBy_nil rfl herr
  | ftAppend sym => exact decidedBy_ftAppend herr sym
  | build => exact h.decidedBy_build herr
  | gencodes => exact h.decidedBy_gencodes herr
  | encSym sym => exact h.decidedBy_encSym herr sym
  | decBit bv => exact h.decidedBy_decBit herr bv
  | decEnd => exact decidedBy_decEnd herr
  | decRst => exact decidedBy_decRst herr
  | fifoClr sel => exact decidedBy_nil rfl herr

/-- Settles O22: the checks of R80 come first; past them the command's row of the table decides. -/
theorem firstFailingCheckDecidesTheCode : Obligations.FirstFailingCheckDecidesTheCode := by
  refine fun w s h => ⟨execWord_of_discarded, fun herr => ?_⟩
  cases hdecode : decode w with
  | illegal why => exact execWord_of_illegal herr hdecode
  | cmd i =>
    obtain ⟨hfails, hcompletes⟩ := h.decidedBy_guardTable herr i
    obtain rfl := encodeOfDecodedWord w i hdecode
    rw [execWord_of_decode herr hdecode]
    dsimp only
    cases hfirst : firstFailing (guardTable i s) with
    | some c => exact hfails c hfirst
    | none => exact hcompletes hfirst

end Sys2Proof.Machine
end

section
/-! PROOFS. The host's sequences (70_reset_and_hazards.md): encoding on one instance and decoding on another return the
symbols (R253, R254, R255), with no error on the way (R261). -/

namespace Sys2Proof.Machine

/-! ### Command words, one after the other -/

theorem runOps_append_next {a b : List BusOp} {s t : State} (h : runOps a s = .next t) :
    runOps (a ++ b) s = runOps b t := by
  rw [runOps_append, h]

/-- Commands of which none clears an error, and which end with none recorded, began with none. -/
theorem err_false_of_execAll {is : List Instr} {s t : State} (hsreset : .sreset ∉ is) (hclrerr : .clrerr ∉ is)
    (h : execAll is s = .next t) (herr : t.err = false) : s.err = false := by
  induction is generalizing s with
  | nil =>
    cases h
    exact herr
  | cons i is ih =>
    obtain ⟨hsreset, hsresets⟩ := List.ne_and_not_mem_of_not_mem_cons hsreset
    obtain ⟨hclrerr, hclrerrs⟩ := List.ne_and_not_mem_of_not_mem_cons hclrerr
    rw [execAll] at h
    split at h
    next m hexec =>
      have hm := ih hsresets hclrerrs h
      exact eq_false_of_ne_true fun hs =>
        ne_true_of_eq_false hm (exec_keeps_err hsreset.symm hclrerr.symm hs hexec)
    all_goals cases h

/-- Such commands run as a program too: written to CMD one after the other, no word is discarded (R80, R225). -/
theorem runOps_cmdOps {is : List Instr} {s t : State} (hsreset : .sreset ∉ is) (hclrerr : .clrerr ∉ is)
    (h : execAll is s = .next t) (herr : t.err = false) : runOps (is.map cmdOp) s = .next t := by
  induction is generalizing s with
  | nil => exact h
  | cons i is ih =>
    have hs := err_false_of_execAll hsreset hclrerr h herr
    rw [execAll] at h
    split at h
    next m hexec =>
      rw [List.map_cons, runOps_cons_of_next ((runBusOp_cmdOp hs).trans hexec)]
      exact ih (List.not_mem_of_not_mem_cons hsreset) (List.not_mem_of_not_mem_cons hclrerr) h
    all_goals cases h

/-! ### From an empty table to a valid tree -/

/-- An instance with an empty table and no recorded error, and a table that it can hold and build (R34, R102, R121). -/
structure CanBuild (s : State) (es : List Entry) : Prop where
  inv : Inv s
  noError : s.err = false
  isEmpty : s.phase = .empty
  nonempty : es ≠ []
  fits : es.length ≤ s.cfg.nmax
  positive : ∀ e ∈ es, e.cnt ≠ 0#32
  distinct : (es.map Entry.sym).Nodup
  total : totalCount es ≤ 2 ^ 32 - 1

/-- The state after the table `es`, with `last` its last entry, has been loaded into `s`. -/
def loadedState (es : List Entry) (last : Entry) (s : State) : State :=
  { s with arg := last.cnt, ft := es, phase := .loading }

/-- The state after the loaded table has been built. -/
def builtState (es : List Entry) (last : Entry) (s : State) : State :=
  { loadedState es last s with
    nodes := buildTree es, phase := .built, decptr := (loadedState es last s).rootPtr }

/-- The state after the codes of the built tree have been generated. -/
def codedState (es : List Entry) (last : Entry) (codes : List Code) (s : State) : State :=
  { builtState es last s with codes := codes, phase := .coded }

section Sequences
variable {s : State} {es : List Entry}

theorem CanBuild.inv_loadedState (h : CanBuild s es) (last : Entry) : Inv (loadedState es last s) :=
  { h.inv with
    tableFits := h.fits
    countsPositive := h.positive
    symbolsDistinct := h.distinct
    emptyIff := iff_of_false nofun h.nonempty
    totalFits := nofun
    nodesBuilt := nofun
    codesDerived := nofun
    pointerInTree := nofun
    pointerIdle := fun _ => h.inv.pointerIdle (State.treeValid_false_iff.2 (.inl h.isEmpty)) }

theorem CanBuild.inv_builtState (h : CanBuild s es) (last : Entry) : Inv (builtState es last s) :=
  (h.inv_loadedState last).built nofun h.total

theorem CanBuild.decptr_builtState (h : CanBuild s es) (last : Entry) :
    (builtState es last s).decptr.toNat = 2 * es.length - 2 :=
  State.rootPtr_toNat (h.inv_loadedState last).small

/-- Loading appends the entries to an empty table (R103). -/
theorem CanBuild.runOps_load (h : CanBuild s es) :
    ∃ last, runOps (loadOps es) s = .next (loadedState es last s) := by
  have hft : s.ft = [] := h.inv.emptyIff.1 h.isEmpty
  obtain ⟨last, -, -, hload⟩ := loadingKeepsInsertionOrder s es h.inv h.noError (.inl h.isEmpty) h.nonempty
    (by simpa [hft] using h.distinct) h.positive (by simpa [hft] using h.fits)
  rw [hft] at hload
  exact ⟨last, hload⟩

theorem CanBuild.runBusOp_build (h : CanBuild s es) (last : Entry) :
    runBusOp (cmdOp .build) (loadedState es last s) = .next (builtState es last s) := by
  have heffect : Effect .build (loadedState es last s) (builtState es last s) := ⟨nofun, h.total, rfl⟩
  exact (runBusOp_cmdOp (s := loadedState es last s) h.noError).trans (exec_build_of_effect heffect)

/-- How the decode sequence begins (R254 steps 2 and 3). -/
theorem CanBuild.runOps_load_build (h : CanBuild s es) :
    ∃ last, runOps (loadOps es ++ [cmdOp .build]) s = .next (builtState es last s) := by
  obtain ⟨last, hload⟩ := h.runOps_load
  exact ⟨last, (runOps_append_next hload).trans (runOps_cons_of_next (h.runBusOp_build last))⟩

/-- How the encode sequence begins (R253 steps 3 to 5). -/
theorem CanBuild.runOps_load_build_gencodes (h : CanBuild s es) :
    ∃ last codes, runOps (loadOps es ++ [cmdOp .build, cmdOp .gencodes]) s = .next (codedState es last codes s) ∧
      Inv (codedState es last codes s) := by
  obtain ⟨last, hload⟩ := h.runOps_load
  have hinv := h.inv_builtState last
  obtain ⟨codes, hcodes, -⟩ := (hinv.shape rfl).genCodes_spec
  have hgencodes : runBusOp (cmdOp .gencodes) (builtState es last s) = .next (codedState es last codes s) :=
    (runBusOp_cmdOp (s := builtState es last s) h.noError).trans (exec_gencodes_of_codes rfl hcodes)
  exact ⟨last, codes, (runOps_append_next hload).trans <| (runOps_cons_of_next (h.runBusOp_build last)).trans
    (runOps_cons_of_next hgencodes), hinv.coded rfl hcodes⟩

end Sequences

/-- Settles O54: after the two beginnings the rest is the round trip of R14, whose commands end with no error recorded, so
that each of them runs as a host operation. -/
theorem encodeThenDecodeSequences : Obligations.EncodeThenDecodeSequences := by
  intro s u es syms hs hserr hsempty hobits hu huerr huempty hosyms hlen hsfits hufits hpositive hdistinct htotal hm
    hsroom huroom
  have hne : es ≠ [] := List.ne_nil_of_length_pos (by omega)
  have hsbuild : CanBuild s es := ⟨hs, hserr, hsempty, hne, hsfits, hpositive, hdistinct, htotal⟩
  have hubuild : CanBuild u es := ⟨hu, huerr, huempty, hne, hufits, hpositive, hdistinct, htotal⟩
  obtain ⟨last, codes, hsrun, hsinv⟩ := hsbuild.runOps_load_build_gencodes
  obtain ⟨last', hurun⟩ := hubuild.runOps_load_build
  have hroot := hubuild.decptr_builtState last'
  obtain ⟨bits, hencode, hdecode⟩ := roundTrip (codedState es last codes s) (builtState es last' u) syms hsinv rfl hlen
    hm (by simpa [codedState, builtState, loadedState, State.n, hobits] using hsroom) (hubuild.inv_builtState last')
    (.inl rfl) rfl hroot (by simpa [builtState, loadedState, hosyms] using huroom)
  have hencodeOps := runOps_cmdOps (by simp) (by simp) hencode hserr
  have hdecodeOps := runOps_cmdOps (by simp [decBits]) (by simp [decBits]) hdecode huerr
  have hbits : (codedState es last codes s).obits ++ bits = bits := by
    rw [show (codedState es last codes s).obits = [] from hobits, List.nil_append]
  rw [List.map_map] at hencodeOps
  rw [List.map_append, decBits, List.map_map] at hdecodeOps
  refine ⟨_, _, (runOps_append_next hsrun).trans hencodeOps, hserr, Eq.trans ?_ hdecodeOps,
    huerr, congrArg (· ++ syms) hosyms, hroot⟩
  rw [hbits, List.append_assoc]
  exact runOps_append_next hurun

end Sys2Proof.Machine
end

section
/-! PROOFS. The phase transition table (70_reset_and_hazards.md R256): the phase that each command's effect leaves, and which
of the command's checks (60_exceptions.md R227) can fail in a phase. -/

namespace Sys2Proof.Machine

/-- The phase a command with its effect leaves (R27). -/
def phaseAfter (i : Instr) (p : Phase) : Phase :=
  match i with
  | .sreset | .ftClear => .empty
  | .ftAppend _ => .loading
  | .build => .built
  | .gencodes => .coded
  | .nop | .clrerr | .encSym _ | .decBit _ | .decEnd | .decRst | .fifoClr _ => p

theorem Effect.phase {i : Instr} {s t : State} (h : Effect i s t) : t.phase = phaseAfter i s.phase := by
  cases i with
  | nop | clrerr | sreset | ftClear | fifoClr =>
    cases h
    rfl
  | ftAppend sym =>
    obtain ⟨-, -, -, -, rfl⟩ := h
    rfl
  | build =>
    obtain ⟨-, -, rfl⟩ := h
    rfl
  | gencodes =>
    obtain ⟨-, codes, -, rfl⟩ := h
    rfl
  | encSym sym =>
    obtain ⟨-, j, code, -, -, -, rfl⟩ := h
    rfl
  | decBit bv =>
    obtain ⟨-, -, b, c, nd, -, -, h⟩ := h
    rcases h with ⟨sym, wt, -, -, rfl⟩ | ⟨wt, l, r, -, rfl⟩
    · rfl
    · rfl
  | decEnd =>
    obtain ⟨-, -, rfl⟩ := h
    rfl
  | decRst =>
    obtain ⟨-, rfl⟩ := h
    rfl

/-- A cell agrees with a command's checks in a state, and with the phase the command's effect would leave: where the cell is
an error code the first check fails with it, elsewhere no check fails with a code the cell does not list. -/
def PhaseCell.Covers (cell : PhaseCell) (checks : List (Bool × ECode)) (after : Phase) : Prop :=
  match cell with
  | .always c => firstFailing checks = some c
  | .goes p codes => p = after ∧ ∀ check ∈ checks, check.1 = true → check.2 ∈ codes

theorem mem_of_firstFailing {checks : List (Bool × ECode)} {c : ECode} (h : firstFailing checks = some c) :
    (true, c) ∈ checks := by
  obtain ⟨⟨b, c'⟩, hfind, rfl⟩ := Option.map_eq_some_iff.1 h
  obtain rfl : b = true := List.find?_some hfind
  exact List.mem_of_find?_eq_some hfind

/-- A valid tree's table has a sum of counts that fits, so a BUILD in BUILT or CODED raises nothing (R123, R256). -/
theorem Inv.covers_build {s : State} (h : Inv s) : (phaseTable .build s.phase).Covers (guardTable .build s) .built := by
  have hempty : s.n = 0 ↔ s.phase = .empty := h.n_eq_zero_iff
  have hover : s.treeValid = true → ¬2 ^ 32 - 1 < totalCount s.ft := fun hv => Nat.not_lt.2 (h.totalFits hv)
  rw [State.treeValid_iff] at hover
  cases hp : s.phase with
  | empty | loading => simp [PhaseCell.Covers, phaseTable, guardTable, hempty, hp]
  | built | coded => simpa [PhaseCell.Covers, phaseTable, guardTable, hempty, hp] using hover

theorem Inv.covers_guardTable {s : State} (h : Inv s) (i : Instr) :
    (phaseTable i s.phase).Covers (guardTable i s) (phaseAfter i s.phase) := by
  cases i with
  | nop | clrerr | sreset | ftClear | fifoClr => exact ⟨rfl, nofun⟩
  | build => exact h.covers_build
  | ftAppend | gencodes | encSym | decBit | decEnd | decRst =>
    cases hp : s.phase <;> simp [PhaseCell.Covers, phaseTable, guardTable, phaseAfter, hp]

/-- Settles O23: each cell covers the command's checks, and these decide whether it raises or has its effect (R227). -/
theorem phaseTransitionTable : Obligations.PhaseTransitionTable := by
  intro i s h herr
  obtain ⟨hfails, hcompletes⟩ := h.decidedBy_guardTable herr i
  have hcovers := h.covers_guardTable i
  cases hcell : phaseTable i s.phase with
  | always c =>
    rw [hcell] at hcovers
    exact hfails c hcovers
  | goes p codes =>
    rw [hcell] at hcovers
    obtain ⟨rfl, hcodes⟩ := hcovers
    cases hfirst : firstFailing (guardTable i s) with
    | some c => exact ⟨_, hfails c hfirst, .inr ⟨c, hcodes _ (mem_of_firstFailing hfirst) rfl, rfl⟩⟩
    | none =>
      obtain ⟨t, hexec, hterr⟩ := hcompletes hfirst
      refine ⟨t, hexec, .inl ⟨hterr, ?_⟩⟩
      rcases exec_next hexec with ⟨c, -, rfl⟩ | heffect
      · cases hterr
      · exact heffect.phase

end Sys2Proof.Machine
end
